-- ==== Sys2Proof/Word.lean ====
section
/-!
DEFINITION. The bit vectors CORE's buses and bytes are made of (00_scope R7, R9).
Every value is unsigned; nothing in CORE is signed (R9, R133).
-/

namespace Sys2Proof

/-- The unit of the store: 8 bits (00_scope R7). -/
abbrev Byte := BitVec 8

/-- A 16-bit quantity: a segment, an offset, the packed FLAGS word, a memory word (00_scope R7). -/
abbrev Half := BitVec 16

/-- A value bus `a`, `b`, `c` or the result bus `r`: `VW = 32` bits (00_scope R7, decision D2). -/
abbrev Word := BitVec 32

end Sys2Proof
end

