-- ==== Sys2Proof/Config.lean ====
section
/-!
DEFINITION. The build parameters of CORE that the spec leaves OPEN (00_scope R7): the capacity of the
store and the number of translator handles. They are fixed when CORE is built and no command changes
them (70_reset_and_hazards R213); the machine's state carries them so that every statement holds for all of them
(DESIGN CHOICE, log entry 1, safe). `VW`, `SEG_BITS`, `OFF_BITS` are fixed by the spec and stand in the
types of `Sys2Proof.Word`.
-/

namespace Sys2Proof

/-- The parameters `CAP` and `N_HANDLES` of 00_scope R7. -/
structure Config where
  /-- `CAP`: capacity of the store in bytes. -/
  cap : Nat
  /-- `N_HANDLES`: number of translator handles onto the one store. -/
  nHandles : Nat
  deriving DecidableEq, Repr

/-- The reference values of 00_scope R7: 1 MiB and two handles. -/
def Config.reference : Config := { cap := 0x100000, nHandles := 2 }

/-- The admissible parameters of 00_scope R7: both are natural numbers of at least 1. -/
abbrev Config.Admissible (c : Config) : Prop := 1 ≤ c.cap ∧ 1 ≤ c.nHandles

/-- `HB = max(1, ceil(log2(N_HANDLES)))`, the width of the handle index `h` (00_scope R7). -/
def Config.handleBits (c : Config) : Nat := max 1 (Nat.clog 2 c.nHandles)

end Sys2Proof
end

