-- ==== Sys2Proof/Syntax.lean ====
section
/-!
DEFINITION. The twenty commands of CORE as instructions (00_scope R17), the command record the host
presents (30_encoding R81), and the names the encoding is written with: opcodes, formats, units and the
reasons an operation code is reserved (30_encoding R85 to R92).
-/

namespace Sys2Proof

/-- The operand width `w` of a width-aware command (30_encoding R86a): 8 or 16 and nothing else. -/
inductive Width where
  | w8
  | w16
  deriving DecidableEq, Repr

/-- An instruction: a decoded command with exactly the fields its format consumes (30_encoding R87).
`a`, `b`, `c` are the value buses, `h` the handle, `seg` and `off` the logical address. -/
inductive Instr where
  /-- SET_SIGN, `set_sign(width, value)` (R112). -/
  | setSign (w : Width) (a : Word)
  /-- SET_PARITY, `set_parity(value)` (R114). -/
  | setParity (a : Word)
  /-- SET_ZERO, `set_zero(width, value)` (R116). -/
  | setZero (w : Width) (a : Word)
  /-- SET_AUX, `set_auxiliary_carry(result, operand1, operand2)` (R118). -/
  | setAux (a b c : Word)
  /-- SET_OVF_ADD, `set_overflow_add(width, result, operand1, operand2)` (R120). -/
  | setOvfAdd (w : Width) (a b c : Word)
  /-- SET_OVF_SUB, `set_overflow_sub(width, result, operand1, operand2)` (R122). -/
  | setOvfSub (w : Width) (a b c : Word)
  /-- SET_CARRY, `set_carry(width, result)` (R125). -/
  | setCarry (w : Width) (a : Word)
  /-- DESERIALIZE, `deserialize(packed)` (R128). -/
  | deserialize (a : Word)
  /-- SERIALIZE, `serialize()` (R127). -/
  | serialize
  /-- WR_TF, `write_tf(v)` (R130). -/
  | wrTf (v : Bool)
  /-- WR_IF, `write_if(v)` (R131). -/
  | wrIf (v : Bool)
  /-- WR_DF, `write_df(v)` (R132). -/
  | wrDf (v : Bool)
  /-- TRANSLATE, `translate(segment, offset)` (R151). -/
  | translate (h : Nat) (seg off : Half)
  /-- READ_BYTE, `read_byte(segment, offset)` (R153). -/
  | readByte (h : Nat) (seg off : Half)
  /-- READ_WORD, `read_word(segment, offset)` (R154). -/
  | readWord (h : Nat) (seg off : Half)
  /-- WRITE_BYTE, `write_byte(segment, offset, value)` (R156). -/
  | writeByte (h : Nat) (seg off : Half) (a : Word)
  /-- WRITE_WORD, `write_word(segment, offset, value)` (R157). -/
  | writeWord (h : Nat) (seg off : Half) (a : Word)
  /-- READ_BLOCK, `read_block(segment, offset, length)` (R159). -/
  | readBlock (h : Nat) (seg off : Half) (a : Word)
  /-- WRITE_BLOCK, `write_block(segment, offset, data)` (R161). -/
  | writeBlock (h : Nat) (seg off : Half) (data : List Byte)
  /-- SNAPSHOT, `snapshot()` (R163). -/
  | snapshot (h : Nat)
  deriving DecidableEq, Repr

/-- The command record the host presents (30_encoding R81). `h` is a natural number, so that any handle
index of any `N_HANDLES` can be written, the invalid ones of 60_exceptions R183 too
(DESIGN CHOICE, log entry 3, safe). -/
structure Command where
  op : Byte
  h : Nat
  seg : Half
  off : Half
  a : Word
  b : Word
  c : Word
  data : List Byte
  deriving DecidableEq, Repr

/-- The twenty mnemonics an operation code can name (30_encoding R88, R96). -/
inductive Opcode where
  | setSign | setParity | setZero | setAux | setOvfAdd | setOvfSub | setCarry
  | deserialize | serialize | wrTf | wrIf | wrDf
  | translate | readByte | readWord | writeByte | writeWord | readBlock | writeBlock | snapshot
  deriving DecidableEq, Repr

/-- The two units of CORE, selected by `U = op[7]` (00_scope R3, 30_encoding R85). -/
inductive CoreUnit where
  | flags
  | mmu
  deriving DecidableEq, Repr

/-- The eleven formats of 30_encoding R87. -/
inductive Format where
  | fWV | fV | fR | fWR | fN | fB | mA | mAV | mAL | mAD | mN
  deriving DecidableEq, Repr

/-- The fields of the command record a format may consume (30_encoding R81, R87). -/
inductive Field where
  | h | seg | off | a | b | c | data
  deriving DecidableEq, Repr

/-- One row of the opcode map (30_encoding R88): a value `v` of `op` selects the row when
`v & mask = pattern`. -/
structure OpRow where
  opcode : Opcode
  pattern : Byte
  mask : Byte
  format : Format
  deriving DecidableEq, Repr

/-- Why a value of `op` is reserved (30_encoding R85, R86d, R88, R92). -/
inductive Reserved where
  /-- `Z = op[6:5]` is not `00`. -/
  | zField
  /-- `FN = op[4:1]` names no function of the unit. -/
  | function
  /-- `S = op[0]` is 1 for a command whose `S` must be 0. -/
  | subOperand
  deriving DecidableEq, Repr

/-- Why a sequence of bytes is no instruction. -/
inductive DecodeError where
  /-- Fewer bytes than the fixed-size part of the image (30_encoding R94, R99). -/
  | truncated (length : Nat)
  /-- A reserved operation code (30_encoding R92). -/
  | reserved (op : Byte) (why : Reserved)
  deriving DecidableEq, Repr

end Sys2Proof
end

