-- ==== Sys2Proof/WellFormed.lean ====
section
/-!
DEFINITION. Which instructions have a canonical image. Every field but the handle has the width of its
bus in its type; the image holds the handle in the eight bits of `h8` (30_encoding R99), so an
instruction is well formed when its handle fits them. Whether a handle is VALID (`h < N_HANDLES`) is no
matter of form: an invalid one is a command that raises `IllegalCommand` (60_exceptions R183).
-/

namespace Sys2Proof

/-- `h8 = zext_8(h)` holds `h` whole (30_encoding R99). -/
def handleFits (h : Nat) : Bool := decide (h < 256)

/-- The instruction can be written as a canonical image that reads back as itself. -/
def Instr.wellFormed : Instr → Bool
  | .setSign _ _ => true
  | .setParity _ => true
  | .setZero _ _ => true
  | .setAux _ _ _ => true
  | .setOvfAdd _ _ _ _ => true
  | .setOvfSub _ _ _ _ => true
  | .setCarry _ _ => true
  | .deserialize _ => true
  | .serialize => true
  | .wrTf _ => true
  | .wrIf _ => true
  | .wrDf _ => true
  | .translate h _ _ => handleFits h
  | .readByte h _ _ => handleFits h
  | .readWord h _ _ => handleFits h
  | .writeByte h _ _ _ => handleFits h
  | .writeWord h _ _ _ => handleFits h
  | .readBlock h _ _ _ => handleFits h
  | .writeBlock h _ _ _ => handleFits h
  | .snapshot h => handleFits h

end Sys2Proof
end

