-- ==== Sys2Proof/Decode.lean ====
section
/-!
DEFINITION. The decoder (bytes of an image to a command record to an instruction, rejecting by name) and,
after it, the encoder, both written from 30_encoding R85 to R99. The command interface and its encoding
are the spec's own (decision D5).
-/

namespace Sys2Proof

/-- The selection bit `W`: 0 selects width 8, 1 selects width 16 (30_encoding R86a). -/
def widthOfBit (s : Bool) : Width := if s then .w16 else .w8

/-- The bit `W` that selects a width (30_encoding R86a). -/
def Width.bit : Width → Bool
  | .w8 => false
  | .w16 => true

/-- The opcode map, row by row as 30_encoding R88 lists it. -/
def opTable : List OpRow :=
  [ ⟨.setSign,     0x00, 0xFE, .fWV⟩, ⟨.setParity,   0x02, 0xFF, .fV⟩,
    ⟨.setZero,     0x04, 0xFE, .fWV⟩, ⟨.setAux,      0x06, 0xFF, .fR⟩,
    ⟨.setOvfAdd,   0x08, 0xFE, .fWR⟩, ⟨.setOvfSub,   0x0A, 0xFE, .fWR⟩,
    ⟨.setCarry,    0x0C, 0xFE, .fWV⟩, ⟨.deserialize, 0x0E, 0xFF, .fV⟩,
    ⟨.serialize,   0x10, 0xFF, .fN⟩,  ⟨.wrTf,        0x12, 0xFE, .fB⟩,
    ⟨.wrIf,        0x14, 0xFE, .fB⟩,  ⟨.wrDf,        0x16, 0xFE, .fB⟩,
    ⟨.translate,   0x80, 0xFF, .mA⟩,  ⟨.readByte,    0x82, 0xFF, .mA⟩,
    ⟨.readWord,    0x83, 0xFF, .mA⟩,  ⟨.writeByte,   0x84, 0xFF, .mAV⟩,
    ⟨.writeWord,   0x85, 0xFF, .mAV⟩, ⟨.readBlock,   0x86, 0xFF, .mAL⟩,
    ⟨.writeBlock,  0x88, 0xFF, .mAD⟩, ⟨.snapshot,    0x8A, 0xFF, .mN⟩ ]

/-- `v & mask == match` (30_encoding R88). -/
def OpRow.selects (row : OpRow) (op : Byte) : Bool := op &&& row.mask == row.pattern

/-- `U = op[7]`: 0 the FLAGS unit, 1 the MMU unit (30_encoding R85). -/
def opUnit (op : Byte) : CoreUnit := if op.getLsbD 7 then .mmu else .flags

/-- `Z = op[6:5]`, which must be `00` (30_encoding R85). -/
def opZ (op : Byte) : BitVec 2 := op.extractLsb' 5 2

/-- `FN = op[4:1]`, the function within the unit (30_encoding R85). -/
def opFn (op : Byte) : BitVec 4 := op.extractLsb' 1 4

/-- How many functions a unit has: FN 0 to 11 and FN 0 to 5 (30_encoding R88). -/
def CoreUnit.functions : CoreUnit → Nat
  | .flags => 12
  | .mmu => 6

/-- The name of the reason a value outside the map is reserved (30_encoding R85, R92). -/
def reservedReason (op : Byte) : Reserved :=
  if opZ op ≠ 0 then .zField
  else if (opUnit op).functions ≤ (opFn op).toNat then .function
  else .subOperand

/-- The decoder of the operation code, total on the 256 values: one of the twenty mnemonics with its
`S` bit, or the reason it is reserved (30_encoding R92). -/
def decodeOp (op : Byte) : Except Reserved (Opcode × Bool) :=
  match opTable.find? (fun row => row.selects op) with
  | some row => .ok (row.opcode, op.getLsbD 0)
  | none => .error (reservedReason op)

/-- The instruction a mnemonic, its `S` bit and the command record make: each operand arrives whole on
its field (30_encoding R81, R86, R87, R89). -/
def assemble (o : Opcode) (s : Bool) (c : Command) : Instr :=
  match o with
  | .setSign => .setSign (widthOfBit s) c.a
  | .setParity => .setParity c.a
  | .setZero => .setZero (widthOfBit s) c.a
  | .setAux => .setAux c.a c.b c.c
  | .setOvfAdd => .setOvfAdd (widthOfBit s) c.a c.b c.c
  | .setOvfSub => .setOvfSub (widthOfBit s) c.a c.b c.c
  | .setCarry => .setCarry (widthOfBit s) c.a
  | .deserialize => .deserialize c.a
  | .serialize => .serialize
  | .wrTf => .wrTf s
  | .wrIf => .wrIf s
  | .wrDf => .wrDf s
  | .translate => .translate c.h c.seg c.off
  | .readByte => .readByte c.h c.seg c.off
  | .readWord => .readWord c.h c.seg c.off
  | .writeByte => .writeByte c.h c.seg c.off c.a
  | .writeWord => .writeWord c.h c.seg c.off c.a
  | .readBlock => .readBlock c.h c.seg c.off c.a
  | .writeBlock => .writeBlock c.h c.seg c.off c.data
  | .snapshot => .snapshot c.h

/-- The decoder of a command record (30_encoding R88, R90, R92). -/
def decodeCommand (c : Command) : Except DecodeError Instr :=
  match decodeOp c.op with
  | .ok (o, s) => .ok (assemble o s c)
  | .error why => .error (.reserved c.op why)

/-- The command record of an image: the 144-bit value `op, h8, seg, off, a, b, c`, most significant byte
first, then the bytes of `data` in order (30_encoding R99). An image without its eighteen fixed bytes is
none (DEDUCED, log entry 11, safe). -/
def commandOfImage : List Byte → Option Command
  | op :: h8 :: s1 :: s0 :: o1 :: o0 :: a3 :: a2 :: a1 :: a0 :: b3 :: b2 :: b1 :: b0 ::
      c3 :: c2 :: c1 :: c0 :: data =>
    some { op := op, h := h8.toNat, seg := s1 ++ s0, off := o1 ++ o0, a := a3 ++ a2 ++ a1 ++ a0,
           b := b3 ++ b2 ++ b1 ++ b0, c := c3 ++ c2 ++ c1 ++ c0, data := data }
  | _ => none

/-- The decoder of an image, total on any bytes (30_encoding R92, R99). -/
def decode (bytes : List Byte) : Except DecodeError Instr :=
  match commandOfImage bytes with
  | some c => decodeCommand c
  | none => .error (.truncated bytes.length)

/-- The format of each command (30_encoding R87). -/
def Opcode.format : Opcode → Format
  | .setSign => .fWV
  | .setParity => .fV
  | .setZero => .fWV
  | .setAux => .fR
  | .setOvfAdd => .fWR
  | .setOvfSub => .fWR
  | .setCarry => .fWV
  | .deserialize => .fV
  | .serialize => .fN
  | .wrTf => .fB
  | .wrIf => .fB
  | .wrDf => .fB
  | .translate => .mA
  | .readByte => .mA
  | .readWord => .mA
  | .writeByte => .mAV
  | .writeWord => .mAV
  | .readBlock => .mAL
  | .writeBlock => .mAD
  | .snapshot => .mN

/-- The fields of the command record a format consumes, `op` with its `W` or `V` bit apart
(30_encoding R87). -/
def Format.consumes : Format → List Field
  | .fWV => [.a]
  | .fV => [.a]
  | .fR => [.a, .b, .c]
  | .fWR => [.a, .b, .c]
  | .fN => []
  | .fB => []
  | .mA => [.h, .seg, .off]
  | .mAV => [.h, .seg, .off, .a]
  | .mAL => [.h, .seg, .off, .a]
  | .mAD => [.h, .seg, .off, .data]
  | .mN => [.h]

/-- Every field of the record that a list of fields does not name is written as zero or empty:
the canonical record of 30_encoding R99. -/
def Command.keepOnly (fs : List Field) (c : Command) : Command :=
  { op := c.op
    h := if .h ∈ fs then c.h else 0
    seg := if .seg ∈ fs then c.seg else 0
    off := if .off ∈ fs then c.off else 0
    a := if .a ∈ fs then c.a else 0
    b := if .b ∈ fs then c.b else 0
    c := if .c ∈ fs then c.c else 0
    data := if .data ∈ fs then c.data else [] }

/-! ## The encoder -/

/-- The operation code of a command with its `S` bit 0 (30_encoding R88, R96). -/
def Opcode.code : Opcode → Byte
  | .setSign => 0x00
  | .setParity => 0x02
  | .setZero => 0x04
  | .setAux => 0x06
  | .setOvfAdd => 0x08
  | .setOvfSub => 0x0A
  | .setCarry => 0x0C
  | .deserialize => 0x0E
  | .serialize => 0x10
  | .wrTf => 0x12
  | .wrIf => 0x14
  | .wrDf => 0x16
  | .translate => 0x80
  | .readByte => 0x82
  | .readWord => 0x83
  | .writeByte => 0x84
  | .writeWord => 0x85
  | .readBlock => 0x86
  | .writeBlock => 0x88
  | .snapshot => 0x8A

/-- The mnemonic of an instruction (30_encoding R96). -/
def Instr.opcode : Instr → Opcode
  | .setSign _ _ => .setSign
  | .setParity _ => .setParity
  | .setZero _ _ => .setZero
  | .setAux _ _ _ => .setAux
  | .setOvfAdd _ _ _ _ => .setOvfAdd
  | .setOvfSub _ _ _ _ => .setOvfSub
  | .setCarry _ _ => .setCarry
  | .deserialize _ => .deserialize
  | .serialize => .serialize
  | .wrTf _ => .wrTf
  | .wrIf _ => .wrIf
  | .wrDf _ => .wrDf
  | .translate _ _ _ => .translate
  | .readByte _ _ _ => .readByte
  | .readWord _ _ _ => .readWord
  | .writeByte _ _ _ _ => .writeByte
  | .writeWord _ _ _ _ => .writeWord
  | .readBlock _ _ _ _ => .readBlock
  | .writeBlock _ _ _ _ => .writeBlock
  | .snapshot _ => .snapshot

/-- The sub-operand bit added to the mnemonic's code: `W` or `V`, else 0. The word forms of the byte and
word commands have codes of their own (30_encoding R86). -/
def Instr.subBit : Instr → Bool
  | .setSign w _ => w.bit
  | .setZero w _ => w.bit
  | .setOvfAdd w _ _ _ => w.bit
  | .setOvfSub w _ _ _ => w.bit
  | .setCarry w _ => w.bit
  | .wrTf v => v
  | .wrIf v => v
  | .wrDf v => v
  | _ => false

/-- The `op` byte of an instruction: `code + W`, `code + V` or `code` (30_encoding R96). -/
def Instr.op (i : Instr) : Byte := i.opcode.code ||| (BitVec.ofBool i.subBit).setWidth 8

/-- The unit that executes an instruction (30_encoding R85). -/
def Instr.unit (i : Instr) : CoreUnit := opUnit i.op

/-- The handle of an MMU command; FLAGS commands have none (30_encoding R87, R90). -/
def Instr.handle : Instr → Option Nat
  | .translate h _ _ => some h
  | .readByte h _ _ => some h
  | .readWord h _ _ => some h
  | .writeByte h _ _ _ => some h
  | .writeWord h _ _ _ => some h
  | .readBlock h _ _ _ => some h
  | .writeBlock h _ _ _ => some h
  | .snapshot h => some h
  | _ => none

/-- A command record with only an operation code: every other field zero or empty. -/
def bareCommand (op : Byte) : Command :=
  { op := op, h := 0, seg := 0, off := 0, a := 0, b := 0, c := 0, data := [] }

/-- The canonical command record of an instruction: unused fields zero (30_encoding R81, R90, R99). -/
def Instr.toCommand (i : Instr) : Command :=
  let bare := bareCommand i.op
  match i with
  | .setSign _ a => { bare with a := a }
  | .setParity a => { bare with a := a }
  | .setZero _ a => { bare with a := a }
  | .setAux a b c => { bare with a := a, b := b, c := c }
  | .setOvfAdd _ a b c => { bare with a := a, b := b, c := c }
  | .setOvfSub _ a b c => { bare with a := a, b := b, c := c }
  | .setCarry _ a => { bare with a := a }
  | .deserialize a => { bare with a := a }
  | .serialize => bare
  | .wrTf _ => bare
  | .wrIf _ => bare
  | .wrDf _ => bare
  | .translate h seg off => { bare with h := h, seg := seg, off := off }
  | .readByte h seg off => { bare with h := h, seg := seg, off := off }
  | .readWord h seg off => { bare with h := h, seg := seg, off := off }
  | .writeByte h seg off a => { bare with h := h, seg := seg, off := off, a := a }
  | .writeWord h seg off a => { bare with h := h, seg := seg, off := off, a := a }
  | .readBlock h seg off a => { bare with h := h, seg := seg, off := off, a := a }
  | .writeBlock h seg off data => { bare with h := h, seg := seg, off := off, data := data }
  | .snapshot h => { bare with h := h }

/-- The two bytes of a 16-bit field, more significant first (30_encoding R99). -/
def bytesOfHalf (v : Half) : List Byte := [v.extractLsb' 8 8, v.extractLsb' 0 8]

/-- The four bytes of a 32-bit field, most significant first (30_encoding R99). -/
def bytesOfWord (v : Word) : List Byte :=
  [v.extractLsb' 24 8, v.extractLsb' 16 8, v.extractLsb' 8 8, v.extractLsb' 0 8]

/-- The image of a command record, most significant byte first (30_encoding R99). -/
def imageOfCommand (c : Command) : List Byte :=
  c.op :: BitVec.ofNat 8 c.h ::
    (bytesOfHalf c.seg ++ bytesOfHalf c.off ++ bytesOfWord c.a ++ bytesOfWord c.b ++ bytesOfWord c.c ++ c.data)

/-- The encoder: the canonical image of an instruction (30_encoding R99). -/
def encode (i : Instr) : List Byte := imageOfCommand i.toCommand

/-! ## The host's numbering of an instruction's bits -/

/-- The image whose byte `k` is bits `8k+7 .. 8k` of `w`, as `spec/opcode_table.json` numbers an
instruction's bits (`op` is its first byte): bits from `nbits` on are 0, and the image is never shorter
than its eighteen fixed bytes. -/
def imageOfTableWord (nbits w : Nat) : List Byte :=
  (List.range (max 18 ((nbits + 7) / 8))).map fun k => BitVec.ofNat 8 ((w % 2 ^ nbits) >>> (8 * k))

/-- The command record of that image. -/
def commandOfTableWord (nbits w : Nat) : Command :=
  (commandOfImage (imageOfTableWord nbits w)).getD (bareCommand (BitVec.ofNat 8 (w % 2 ^ nbits)))

/-- What the decoder reads from an instruction whose bits are `w`. -/
def decodeTableWord (nbits w : Nat) : Option Instr :=
  (decode (imageOfTableWord nbits w)).toOption

end Sys2Proof
end

