-- ==== Sys2Proof/Machine/State.lean ====
section
/-!
DEFINITION. The whole state of CORE as plain data: the tuple
`(FLAGS, MEM, BUSY, FAULT_CODE, FAULT_OP, FAULT_ADDR)` of 10_state R20, the response last delivered
(30_encoding R80, R83), and beside them the host's remaining moves and the build parameters.
CORE has no register file, no program counter, no mode and no other control register
(10_state R40 to R44), so none stands here.
-/

namespace Sys2Proof.Machine

/-- The FLAGS register, one field per row of the table of 10_state R21, in the order of its bits.
The four reserved fields hold 0 from reset onward and nothing writes them (10_state R24). -/
structure Flags where
  /-- bit 0, carry: computed -/
  cf : Bool
  /-- bit 1, reserved: never written -/
  res1 : Bool
  /-- bit 2, parity: computed -/
  pf : Bool
  /-- bit 3, reserved: never written -/
  res3 : Bool
  /-- bit 4, auxiliary carry: computed -/
  af : Bool
  /-- bit 5, reserved: never written -/
  res5 : Bool
  /-- bit 6, zero: computed -/
  zf : Bool
  /-- bit 7, sign: computed -/
  sf : Bool
  /-- bit 8, trap: control, direct -/
  tf : Bool
  /-- bit 9, interrupt: control, direct -/
  if_ : Bool
  /-- bit 10, direction: control, direct -/
  df : Bool
  /-- bit 11, overflow: computed -/
  of_ : Bool
  /-- bits 13:12, I/O privilege level, `IOPL[0]` at bit 12 (10_state R28): hidden -/
  iopl : BitVec 2
  /-- bit 14, nested task (10_state R29): hidden -/
  nt : Bool
  /-- bit 15, reserved: never written, and not read either (10_state R25) -/
  res15 : Bool
  deriving DecidableEq, Repr

/-- The register "created at machine reset with all bits false" (10_state R38, R39). -/
def Flags.reset : Flags :=
  { cf := false, res1 := false, pf := false, res3 := false, af := false, res5 := false, zf := false,
    sf := false, tf := false, if_ := false, df := false, of_ := false, iopl := 0, nt := false,
    res15 := false }

/-- The store: the bytes that are not `0x00`, by rising linear address. An unlisted address reads `0x00`,
the reset contents of 10_state R32 and R39. -/
abbrev Memory := List Host.Cell

/-- The canonical form of the store: addresses strictly rising, and no listed byte `0x00`. -/
abbrev Memory.wf (m : Memory) : Prop :=
  m.Pairwise (fun x y => x.1 < y.1) ∧ ∀ cell ∈ m, cell.2 ≠ 0#8

/-- Every listed address exists: it is below `CAP` (20_memory R50). -/
abbrev Memory.within (m : Memory) (cap : Nat) : Prop := ∀ cell ∈ m, cell.1 < cap

/-- The outcome codes of a response by name (30_encoding R84). -/
inductive Status where
  /-- 0: the command executed. -/
  | ok
  /-- 1: this command raised `IllegalCommand`. -/
  | illegalCommand
  /-- 2: this command raised `BoundsFault`. -/
  | boundsFault
  /-- 3: this command raised `ReentrantAccess`. -/
  | reentrantAccess
  /-- 4: CORE was already halted and the command was refused. -/
  | halted
  deriving DecidableEq, Repr

/-- The response record (30_encoding R83). -/
structure Response where
  status : Status
  /-- scalar result, zero-extended; 0 when there is none -/
  r : Word
  /-- sequence result, a copy (20_memory R61); empty when there is none -/
  rdata : List Byte
  deriving DecidableEq, Repr

/-- What the host may do to CORE that changes its state (70_reset_and_hazards R227): present a command, or apply the
reset input. Reading the status outputs is no move: it changes nothing (10_state R31). -/
inductive HostMove where
  | command (c : Command)
  | reset
  deriving DecidableEq, Repr

/-- The state of the machine. -/
structure State where
  /-- `FLAGS` (10_state R21) -/
  flags : Flags
  /-- `MEM` (10_state R32) -/
  mem : Memory
  /-- `BUSY`, the hidden exclusive-access cell (10_state R33) -/
  busy : Bool
  /-- `FAULT_CODE`, the fault latch; CORE is halted when it is not 0 (10_state R34) -/
  faultCode : BitVec 2
  /-- `FAULT_OP`, the `op` of the faulting command (10_state R35) -/
  faultOp : Byte
  /-- `FAULT_ADDR`, the translated base address of a faulting access (10_state R35) -/
  faultAddr : Nat
  /-- the response last delivered (30_encoding R80, R83); none since a reset (DEDUCED, log entry 5) -/
  rsp : Option Response
  /-- the moves the host has still to make, the next one first: the model's own field for the other
  agent (00_scope R18.1, 70_reset_and_hazards R228; DESIGN CHOICE, log entry 4) -/
  host : List HostMove
  /-- the build parameters, which no step changes (70_reset_and_hazards R213; DESIGN CHOICE, log entry 1) -/
  cfg : Config
  deriving DecidableEq, Repr

/-- The faults of 60_exceptions R181. Each is TAKEN: `State.raise` latches it and the step answers a NEXT
state, the entry 60_exceptions R189 describes. No step ends in `Host.Outcome.fault`, so none of these is
a stop of the model (log entry 7, safe). -/
inductive Fault where
  /-- Raised by a reserved `op` and by an MMU command with `h >= N_HANDLES` (R183). Safe: the entry is
  the spec's. -/
  | illegalCommand
  /-- Raised by the six commands that access an address, when the access is not in range (R186). Safe:
  the spec's documented strengthening of the reference (R187). -/
  | boundsFault
  /-- Raised by the seven commands that access the store, when `BUSY = 1` as they begin (R184). Safe: no
  run from reset meets it (R185). -/
  | reentrantAccess
  deriving DecidableEq, Repr

/-- Why an instruction has no meaning. Nothing raises it: every command of the opcode map has its
meaning. -/
inductive Refusal where
  /-- An instruction not modelled, by its mnemonic. Safe; raised by no arm of `exec`. -/
  | notModelled (mnemonic : String)
  deriving DecidableEq, Repr

/-- The state right after reset: every piece at the value of 10_state R39, the reference parameters of
00_scope R7, no response delivered and nothing presented yet. -/
def State.reset : State :=
  { flags := Flags.reset, mem := [], busy := false, faultCode := 0, faultOp := 0, faultAddr := 0,
    rsp := none, host := [], cfg := Config.reference }

/-- The status outputs, readable by the host at any time between commands (10_state R31, R34, R35). -/
structure StatusOutputs where
  cf : Bool
  pf : Bool
  af : Bool
  zf : Bool
  sf : Bool
  tf : Bool
  if_ : Bool
  df : Bool
  of_ : Bool
  faultCode : BitVec 2
  faultOp : Byte
  faultAddr : Nat
  deriving DecidableEq, Repr

end Sys2Proof.Machine
end

