-- ==== Sys2Proof/Machine/Ops.lean ====
section
/-!
DEFINITION. The named operations over the store and over the machine's state: reading and writing bytes,
words and blocks (20_memory R56 to R58), answering a command (30_encoding R83, R91), taking a fault
(60_exceptions R189), refusing a command when halted (R190), and the order of checks every command goes
through (40_flags_ops R110, 41_mmu_ops R150, 60_exceptions R192).
-/

namespace Sys2Proof.Machine

/-! ## The store -/

/-- `MEM[addr]`: the listed byte, or `0x00` (10_state R32). -/
def Memory.read : Memory → Nat → Byte
  | [], _ => 0#8
  | (x, b) :: m, addr => if x = addr then b else Memory.read m addr

/-- `MEM[addr] <- v`, keeping the canonical form: a byte `0x00` is not listed. -/
def Memory.write : Memory → Nat → Byte → Memory
  | [], addr, v => if v = 0#8 then [] else [(addr, v)]
  | (x, b) :: m, addr, v =>
    if addr < x then (if v = 0#8 then (x, b) :: m else (addr, v) :: (x, b) :: m)
    else if addr = x then (if v = 0#8 then m else (addr, v) :: m)
    else (x, b) :: Memory.write m addr v

/-- `MemRead(addr, 1)` (20_memory R56). -/
def Memory.readByte (m : Memory) (addr : Nat) : Byte := m.read addr

/-- `MemRead(addr, 2) = { MEM[addr+1], MEM[addr] }`: little-endian, at the linear address plus one
(20_memory R55b, R56, R59). -/
def Memory.readHalf (m : Memory) (addr : Nat) : Half := m.read (addr + 1) ++ m.read addr

/-- `MemWrite(addr, 1, v)`: `v[7:0]` (20_memory R57). -/
def Memory.writeByte (m : Memory) (addr : Nat) (v : Word) : Memory :=
  m.write addr (v.extractLsb' 0 8)

/-- `MemWrite(addr, 2, v)`: `v[7:0]` at `addr`, `v[15:8]` at `addr + 1` (20_memory R57). -/
def Memory.writeHalf (m : Memory) (addr : Nat) (v : Word) : Memory :=
  (m.write addr (v.extractLsb' 0 8)).write (addr + 1) (v.extractLsb' 8 8)

/-- `MemReadBlock(addr, len)`: upward from `addr` (20_memory R58). -/
def Memory.readBlock (m : Memory) (addr : Nat) : Nat → List Byte
  | 0 => []
  | len + 1 => m.read addr :: Memory.readBlock m (addr + 1) len

/-- `MemWriteBlock(addr, data)`: `data[i]` to `MEM[addr+i]` (20_memory R58). -/
def Memory.writeBlock (m : Memory) (addr : Nat) : List Byte → Memory
  | [] => m
  | b :: data => Memory.writeBlock (m.write addr b) (addr + 1) data

/-! ## Codes -/

/-- The fault's number, latched in `FAULT_CODE` (60_exceptions R181). -/
def Fault.code : Fault → BitVec 2
  | .illegalCommand => 1
  | .boundsFault => 2
  | .reentrantAccess => 3

/-- The status a fault answers with (30_encoding R84). -/
def Fault.status : Fault → Status
  | .illegalCommand => .illegalCommand
  | .boundsFault => .boundsFault
  | .reentrantAccess => .reentrantAccess

/-- The 3-bit number of a status (30_encoding R84). -/
def Status.code : Status → BitVec 3
  | .ok => 0
  | .illegalCommand => 1
  | .boundsFault => 2
  | .reentrantAccess => 3
  | .halted => 4

/-! ## Answering, refusing, faulting -/

/-- Halted: `FAULT_CODE != 0` (10_state R34, 60_exceptions R190). -/
def State.halted (s : State) : Bool := s.faultCode != 0

/-- The response of a completed command (30_encoding R83, R84). -/
def State.complete (s : State) (r : Word) (rdata : List Byte) : State :=
  { s with rsp := some { status := .ok, r := r, rdata := rdata } }

/-- The response of a completed command that fills no result (30_encoding R91). -/
def State.done (s : State) : State := s.complete 0 []

/-- A command refused because CORE is halted: status 4, nothing else changes (60_exceptions R190). -/
def State.refuse (s : State) : State :=
  { s with rsp := some { status := .halted, r := 0, rdata := [] } }

/-- Fault entry, `raise F(info)` (60_exceptions R189): the latch records the fault, FLAGS, MEM and BUSY
are as they were, the response carries the fault's status and no data. Control goes nowhere: there is no
vector and no return, only reset leaves the halted condition (R191). -/
def State.raise (s : State) (f : Fault) (op : Byte) (info : Nat) : State :=
  { s with
    faultCode := f.code
    faultOp := op
    faultAddr := info
    rsp := some { status := f.status, r := 0, rdata := [] } }

/-- A store-accessing command takes the exclusive-access cell (10_state R33). -/
def State.acquire (s : State) : State := { s with busy := true }

/-- It leaves `BUSY = 0` when it completes, also when it raises `BoundsFault` (10_state R33). -/
def State.release (s : State) : State := { s with busy := false }

/-! ## The order of checks -/

/-- What a step of the machine answers. -/
abbrev Result := Host.Outcome State Fault Refusal

/-- Every command first meets the halt check (60_exceptions R190). -/
def unlessHalted (s : State) (act : State → State) : Result :=
  .next (if s.halted then s.refuse else act s)

/-- A FLAGS-unit command: when CORE is not halted it always executes, and no operand is refused
(40_flags_ops R110). `act` gives the new register from the old. -/
def writeFlags (s : State) (act : Flags → Flags) : Result :=
  unlessHalted s fun t => { t with flags := act t.flags }.done

/-- An MMU-unit command, steps 1 and 2 of 41_mmu_ops R150: halted, then the handle; `act` is the rest. -/
def withHandle (s : State) (op : Byte) (h : Nat) (act : State → State) : Result :=
  unlessHalted s fun t => if h < t.cfg.nHandles then act t else t.raise .illegalCommand op 0

/-- A store access of `n` bytes at linear address `base`, steps 3 to 6 of 41_mmu_ops R150: the reentrancy
check, then, holding `BUSY`, the range check over the whole extent (60_exceptions R186, R188), then the
access `act`; `BUSY` is released at the end (10_state R33). -/
def accessStore (s : State) (op : Byte) (base n : Nat) (act : State → State) : State :=
  if s.busy then s.raise .reentrantAccess op base
  else
    let held := s.acquire
    (if base + n ≤ held.cfg.cap then act held else held.raise .boundsFault op base).release

/-- A store-accessing command: 41_mmu_ops R150, all six steps. -/
def storeCommand (s : State) (op : Byte) (h base n : Nat) (act : State → State) : Result :=
  withHandle s op h fun t => accessStore t op base n act

/-- A command with a reserved `op`: `IllegalCommand`, unless CORE is halted already
(30_encoding R92, 60_exceptions R183, R192). -/
def execReserved (op : Byte) (s : State) : Result :=
  unlessHalted s fun t => t.raise .illegalCommand op 0

/-- Reset, applied through the reset input: all of CORE's state at once, no response, whatever the state
was (70_reset_and_hazards R210, R211). The build parameters stay (R213), and so do the host's further moves. -/
def applyReset (s : State) : State := { State.reset with host := s.host, cfg := s.cfg }

/-! ## What the host reads without a command -/

/-- The status outputs (10_state R31, R34, R35): each equals its field, also when halted. -/
def State.outputs (s : State) : StatusOutputs :=
  { cf := s.flags.cf, pf := s.flags.pf, af := s.flags.af, zf := s.flags.zf, sf := s.flags.sf,
    tf := s.flags.tf, if_ := s.flags.if_, df := s.flags.df, of_ := s.flags.of_,
    faultCode := s.faultCode, faultOp := s.faultOp, faultAddr := s.faultAddr }

end Sys2Proof.Machine
end

