-- ==== Sys2Proof/Machine/Operands.lean ====
section
/-!
DEFINITION. The operand forms: the constants a width selects (00_scope R9), the translation of a logical
address (20_memory R53), the length of a block (41_mmu_ops R159) and the zero extension of results
(30_encoding R89). No operand is scaled, sign-extended or assembled from scattered bits (R89).
-/

namespace Sys2Proof.Machine

/-- The width in bits: 8 or 16 (00_scope R9). -/
def widthBits : Width → Nat
  | .w8 => 8
  | .w16 => 16

/-- `sign_bit(8) = 0x80`, `sign_bit(16) = 0x8000` (00_scope R9). -/
def signBit : Width → Word
  | .w8 => 0x80
  | .w16 => 0x8000

/-- `carry_out_bit(8) = 0x100`, `carry_out_bit(16) = 0x10000` (00_scope R9). -/
def carryOutBit : Width → Word
  | .w8 => 0x100
  | .w16 => 0x10000

/-- `mask(8) = 0xFF`, `mask(16) = 0xFFFF` (00_scope R9). -/
def widthMask : Width → Word
  | .w8 => 0xFF
  | .w16 => 0xFFFF

/-- `Lin(seg, off) = seg * 16 + off`, exact natural-number arithmetic, no wraparound at any boundary
(20_memory R53, R55). -/
def lin (seg off : Half) : Nat := seg.toNat * 16 + off.toNat

/-- The length operand of READ_BLOCK: all of bus `a`, unsigned (30_encoding R89, 41_mmu_ops R159). -/
def blockLength (a : Word) : Nat := a.toNat

/-- A linear address on the result bus (41_mmu_ops R151). It is at most `0x10FFEF` and fits `VW` bits. -/
def linearResult (l : Nat) : Word := BitVec.ofNat 32 l

/-- A byte on the result bus: `{0x000000, byte}` (30_encoding R89). -/
def byteResult (b : Byte) : Word := b.setWidth 32

/-- A 16-bit value on the result bus: `{0x0000, value}` (30_encoding R89). -/
def halfResult (v : Half) : Word := v.setWidth 32

end Sys2Proof.Machine
end

