-- ==== Sys2Proof/Machine/Flags.lean ====
section
/-!
DEFINITION. The flag computations: the seven evaluators as functions of their operands alone
(40_flags_ops R111 to R126), in the formulas the source prints, and the packed word (10_state R22, R23).
-/

namespace Sys2Proof.Machine

/-- SET_SIGN: `(a & sign_bit(w)) != 0` (40_flags_ops R112). -/
def evalSign (w : Width) (a : Word) : Bool := a &&& signBit w != 0

/-- SET_PARITY: the literal bit-0 test, not the population count (40_flags_ops R114, 90_conflicts C6). -/
def evalParity (a : Word) : Bool := !a.getLsbD 0

/-- SET_ZERO: `(a & mask(w)) == 0` (40_flags_ops R116). -/
def evalZero (w : Width) (a : Word) : Bool := a &&& widthMask w == 0

/-- SET_AUX: `((a ^ (b ^ c)) & 0x10) != 0` (40_flags_ops R118). -/
def evalAux (a b c : Word) : Bool := (a ^^^ (b ^^^ c)) &&& 0x10 != 0

/-- SET_OVF_ADD: `((a ^ b) & (a ^ c) & sign_bit(w)) != 0` (40_flags_ops R120). -/
def evalOvfAdd (w : Width) (a b c : Word) : Bool := (a ^^^ b) &&& (a ^^^ c) &&& signBit w != 0

/-- SET_OVF_SUB: `((c ^ b) & (c ^ a) & sign_bit(w)) != 0`, the formula whatever the roles
(40_flags_ops R122, R123, 90_conflicts C3). -/
def evalOvfSub (w : Width) (a b c : Word) : Bool := (c ^^^ b) &&& (c ^^^ a) &&& signBit w != 0

/-- SET_CARRY: `(a & carry_out_bit(w)) != 0` (40_flags_ops R125). -/
def evalCarry (w : Width) (a : Word) : Bool := a &&& carryOutBit w != 0

/-- A flag at its place in the packed word. -/
def flagAt (b : Bool) (place : Nat) : Half := (BitVec.ofBool b).setWidth 16 <<< place

/-- `Pack(FLAGS)` (10_state R22): bits 1, 3 and 5 are 0 and bit 15 is 1 whatever the reserved fields
hold (R25). -/
def pack (f : Flags) : Half :=
  0x8000 ||| flagAt f.cf 0 ||| flagAt f.pf 2 ||| flagAt f.af 4 ||| flagAt f.zf 6 ||| flagAt f.sf 7 |||
    flagAt f.tf 8 ||| flagAt f.if_ 9 ||| flagAt f.df 10 ||| flagAt f.of_ 11 |||
    (f.iopl.setWidth 16 <<< 12) ||| flagAt f.nt 14

/-- `Unpack(p)` (10_state R23) installed over a register: the twelve variable fields are replaced, the
reserved ones stay, and bits 1, 3, 5 and 15 of `p` are ignored. -/
def unpack (p : Half) (f : Flags) : Flags :=
  { f with
    cf := p.getLsbD 0
    pf := p.getLsbD 2
    af := p.getLsbD 4
    zf := p.getLsbD 6
    sf := p.getLsbD 7
    tf := p.getLsbD 8
    if_ := p.getLsbD 9
    df := p.getLsbD 10
    of_ := p.getLsbD 11
    iopl := p.extractLsb' 12 2
    nt := p.getLsbD 14 }

end Sys2Proof.Machine
end

