-- ==== Sys2Proof/Machine/Evaluators.lean ====
section
/-!
DEFINITION. The seven evaluator commands of the FLAGS unit (40_flags_ops R112 to R126). Each writes exactly
one flag, from its operands alone (R111), and answers status 0 with no result (R110).
-/

namespace Sys2Proof.Machine

/-- SET_SIGN: `FLAGS.SF <- a[w-1]` (40_flags_ops R112). -/
def execSetSign (w : Width) (a : Word) (s : State) : Result :=
  writeFlags s fun f => { f with sf := evalSign w a }

/-- SET_PARITY: `FLAGS.PF <- (a[0] == 0)` (40_flags_ops R114). -/
def execSetParity (a : Word) (s : State) : Result :=
  writeFlags s fun f => { f with pf := evalParity a }

/-- SET_ZERO: `FLAGS.ZF <- (a[w-1:0] == 0)` (40_flags_ops R116). -/
def execSetZero (w : Width) (a : Word) (s : State) : Result :=
  writeFlags s fun f => { f with zf := evalZero w a }

/-- SET_AUX: `FLAGS.AF <- a[4] ^ b[4] ^ c[4]` (40_flags_ops R118). -/
def execSetAux (a b c : Word) (s : State) : Result :=
  writeFlags s fun f => { f with af := evalAux a b c }

/-- SET_OVF_ADD: `FLAGS.OF <- (a[s] ^ b[s]) & (a[s] ^ c[s])`, `s = w-1` (40_flags_ops R120). -/
def execSetOvfAdd (w : Width) (a b c : Word) (s : State) : Result :=
  writeFlags s fun f => { f with of_ := evalOvfAdd w a b c }

/-- SET_OVF_SUB: `FLAGS.OF <- (c[s] ^ b[s]) & (c[s] ^ a[s])`, `s = w-1` (40_flags_ops R122). -/
def execSetOvfSub (w : Width) (a b c : Word) (s : State) : Result :=
  writeFlags s fun f => { f with of_ := evalOvfSub w a b c }

/-- SET_CARRY: `FLAGS.CF <- a[w]` (40_flags_ops R125). -/
def execSetCarry (w : Width) (a : Word) (s : State) : Result :=
  writeFlags s fun f => { f with cf := evalCarry w a }

end Sys2Proof.Machine
end

