-- ==== Sys2Proof/Machine/FlagWord.lean ====
section
/-!
DEFINITION. The FLAGS-unit commands on the whole register and on the control flags: SERIALIZE,
DESERIALIZE, WR_TF, WR_IF, WR_DF (40_flags_ops R127 to R132).
-/

namespace Sys2Proof.Machine

/-- DESERIALIZE: `FLAGS <- Unpack(a[15:0])`, the complete inverse of SERIALIZE (40_flags_ops R128, R129). -/
def execDeserialize (a : Word) (s : State) : Result :=
  writeFlags s (unpack (a.extractLsb' 0 16))

/-- SERIALIZE: `r = zext(Pack(FLAGS))`; FLAGS is not changed (40_flags_ops R127). -/
def execSerialize (s : State) : Result :=
  unlessHalted s fun t => t.complete (halfResult (pack t.flags)) []

/-- WR_TF: `FLAGS.TF <- V` (40_flags_ops R130). -/
def execWrTf (v : Bool) (s : State) : Result := writeFlags s fun f => { f with tf := v }

/-- WR_IF: `FLAGS.IF <- V` (40_flags_ops R131). -/
def execWrIf (v : Bool) (s : State) : Result := writeFlags s fun f => { f with if_ := v }

/-- WR_DF: `FLAGS.DF <- V` (40_flags_ops R132). -/
def execWrDf (v : Bool) (s : State) : Result := writeFlags s fun f => { f with df := v }

end Sys2Proof.Machine
end

