-- ==== Sys2Proof/Machine/Mmu.lean ====
section
/-!
DEFINITION. The eight commands of the MMU unit (41_mmu_ops R151 to R163), each over the shared sequence of
41_mmu_ops R150. None reads or writes FLAGS; the handle selects nothing but itself (20_memory R63).
-/

namespace Sys2Proof.Machine

/-- TRANSLATE: `r = Lin(seg, off)`; no access, so never a `BoundsFault` and no look at `BUSY`
(41_mmu_ops R151). -/
def execTranslate (h : Nat) (seg off : Half) (s : State) : Result :=
  withHandle s Opcode.translate.code h fun t => t.complete (linearResult (lin seg off)) []

/-- READ_BYTE: `r = MEM[L]` (41_mmu_ops R153). -/
def execReadByte (h : Nat) (seg off : Half) (s : State) : Result :=
  storeCommand s Opcode.readByte.code h (lin seg off) 1 fun t =>
    t.complete (byteResult (t.mem.readByte (lin seg off))) []

/-- READ_WORD: `r = MEM[L] | (MEM[L+1] << 8)` (41_mmu_ops R154). -/
def execReadWord (h : Nat) (seg off : Half) (s : State) : Result :=
  storeCommand s Opcode.readWord.code h (lin seg off) 2 fun t =>
    t.complete (halfResult (t.mem.readHalf (lin seg off))) []

/-- WRITE_BYTE: `MEM[L] <- a[7:0]` (41_mmu_ops R156). -/
def execWriteByte (h : Nat) (seg off : Half) (a : Word) (s : State) : Result :=
  storeCommand s Opcode.writeByte.code h (lin seg off) 1 fun t =>
    { t with mem := t.mem.writeByte (lin seg off) a }.done

/-- WRITE_WORD: `MEM[L] <- a[7:0]`, `MEM[L+1] <- a[15:8]` (41_mmu_ops R157). -/
def execWriteWord (h : Nat) (seg off : Half) (a : Word) (s : State) : Result :=
  storeCommand s Opcode.writeWord.code h (lin seg off) 2 fun t =>
    { t with mem := t.mem.writeHalf (lin seg off) a }.done

/-- READ_BLOCK: `rdata = [MEM[L], ..., MEM[L+a-1]]` (41_mmu_ops R159). -/
def execReadBlock (h : Nat) (seg off : Half) (a : Word) (s : State) : Result :=
  storeCommand s Opcode.readBlock.code h (lin seg off) (blockLength a) fun t =>
    t.complete 0 (t.mem.readBlock (lin seg off) (blockLength a))

/-- WRITE_BLOCK: `MEM[L+i] <- data[i]` for every i, in one step (41_mmu_ops R161). -/
def execWriteBlock (h : Nat) (seg off : Half) (data : List Byte) (s : State) : Result :=
  storeCommand s Opcode.writeBlock.code h (lin seg off) data.length fun t =>
    { t with mem := t.mem.writeBlock (lin seg off) data }.done

/-- SNAPSHOT: `rdata = [MEM[0], ..., MEM[CAP-1]]`; `CAP` bytes at 0 are always in range, and the address
a fault would record is 0 (41_mmu_ops R163, 60_exceptions R181, R186). -/
def execSnapshot (h : Nat) (s : State) : Result :=
  storeCommand s Opcode.snapshot.code h 0 s.cfg.cap fun t =>
    t.complete 0 (t.mem.readBlock 0 t.cfg.cap)

end Sys2Proof.Machine
end

