-- ==== Sys2Proof/Machine/Dispatch.lean ====
section
/-! DEFINITION. The meaning of every instruction: one arm per constructor, each one call of its meaning. -/

namespace Sys2Proof.Machine

def exec (i : Instr) (s : State) : Host.Outcome State Fault Refusal :=
  match i with
  -- the evaluators (40_flags_ops R112 to R126)
  | .setSign w a => Sys2Proof.Machine.execSetSign w a s
  | .setParity a => Sys2Proof.Machine.execSetParity a s
  | .setZero w a => Sys2Proof.Machine.execSetZero w a s
  | .setAux a b c => Sys2Proof.Machine.execSetAux a b c s
  | .setOvfAdd w a b c => Sys2Proof.Machine.execSetOvfAdd w a b c s
  | .setOvfSub w a b c => Sys2Proof.Machine.execSetOvfSub w a b c s
  | .setCarry w a => Sys2Proof.Machine.execSetCarry w a s
  -- the register as a whole and the control flags (40_flags_ops R127 to R132)
  | .deserialize a => Sys2Proof.Machine.execDeserialize a s
  | .serialize => Sys2Proof.Machine.execSerialize s
  | .wrTf v => Sys2Proof.Machine.execWrTf v s
  | .wrIf v => Sys2Proof.Machine.execWrIf v s
  | .wrDf v => Sys2Proof.Machine.execWrDf v s
  -- the MMU unit (41_mmu_ops R151 to R163)
  | .translate h seg off => Sys2Proof.Machine.execTranslate h seg off s
  | .readByte h seg off => Sys2Proof.Machine.execReadByte h seg off s
  | .readWord h seg off => Sys2Proof.Machine.execReadWord h seg off s
  | .writeByte h seg off a => Sys2Proof.Machine.execWriteByte h seg off a s
  | .writeWord h seg off a => Sys2Proof.Machine.execWriteWord h seg off a s
  | .readBlock h seg off a => Sys2Proof.Machine.execReadBlock h seg off a s
  | .writeBlock h seg off data => Sys2Proof.Machine.execWriteBlock h seg off data s
  | .snapshot h => Sys2Proof.Machine.execSnapshot h s

end Sys2Proof.Machine
end

