-- ==== Sys2Proof/Machine/Fetch.lean ====
section
/-!
DEFINITION. How the next command reaches CORE. CORE fetches nothing (10_state R41): the host presents one
command, CORE executes it as one step and answers, and only then may the host present the next
(30_encoding R80, 20_memory R66, R67). The host's remaining moves stand in the state (log entry 4).
-/

namespace Sys2Proof.Machine

/-- CORE executes the command presented: the decoded instruction, or the reserved case
(30_encoding R92). -/
def runCommand (c : Command) (s : State) : Result :=
  match decodeCommand c with
  | .ok i => exec i s
  | .error _ => execReserved c.op s

/-- One move of the host and CORE's answer to it. With no move left CORE stays idle: nothing changes
(70_reset_and_hazards R228). -/
def advance (s : State) : Result :=
  match s.host with
  | [] => .next s
  | .command c :: rest => runCommand c { s with host := rest }
  | .reset :: rest => .next (applyReset { s with host := rest })

/-- The host presents a command next: it stands before its other moves. -/
def present (c : Command) (s : State) : State := { s with host := .command c :: s.host }

end Sys2Proof.Machine
end

