-- ==== Sys2Proof/Machine/Step.lean ====
section
/-! DEFINITION. One step of the machine, and the placing of one instruction where the step takes its next. -/

namespace Sys2Proof.Machine

/-- One step: the host's next move and CORE's answer, indivisible (20_memory R66). -/
def step (s : State) : Host.Outcome State Fault Refusal := advance s

/-- `s` with the instruction whose bits are `w` presented as the host's next command. -/
def State.withFetchWord (s : State) (nbits w : Nat) : State := present (commandOfTableWord nbits w) s

end Sys2Proof.Machine
end

