-- ==== Sys2Proof/Machine/Text.lean ====
section
/-!
DEFINITION. The written forms of a command: the textual call of 30_encoding R95 and R96 (reading refuses
what does not fit its field, R97), the canonical image of R99, and a response. Every line of text is
exactly one command (R97). Details the spec leaves to the writer are in log entry 14 (DESIGN CHOICE, safe).
Text is handled as a list of characters.
-/

namespace Sys2Proof.Machine

/-! ## Names -/

/-- Each mnemonic of `opcode_table.json` and its textual name, one to one (30_encoding R96). -/
def commandNames : List (Opcode × String × String) :=
  [ (.setSign, "SET_SIGN", "set_sign"), (.setParity, "SET_PARITY", "set_parity"),
    (.setZero, "SET_ZERO", "set_zero"), (.setAux, "SET_AUX", "set_auxiliary_carry"),
    (.setOvfAdd, "SET_OVF_ADD", "set_overflow_add"), (.setOvfSub, "SET_OVF_SUB", "set_overflow_sub"),
    (.setCarry, "SET_CARRY", "set_carry"), (.deserialize, "DESERIALIZE", "deserialize"),
    (.serialize, "SERIALIZE", "serialize"), (.wrTf, "WR_TF", "write_tf"), (.wrIf, "WR_IF", "write_if"),
    (.wrDf, "WR_DF", "write_df"), (.translate, "TRANSLATE", "translate"),
    (.readByte, "READ_BYTE", "read_byte"), (.readWord, "READ_WORD", "read_word"),
    (.writeByte, "WRITE_BYTE", "write_byte"), (.writeWord, "WRITE_WORD", "write_word"),
    (.readBlock, "READ_BLOCK", "read_block"), (.writeBlock, "WRITE_BLOCK", "write_block"),
    (.snapshot, "SNAPSHOT", "snapshot") ]

/-- The textual name of a mnemonic (30_encoding R96). -/
def textName (o : Opcode) : List Char :=
  match commandNames.find? (fun row => row.1 = o) with
  | some row => row.2.2.toList
  | none => []

/-- The mnemonic a textual name stands for (30_encoding R96). -/
def opcodeOfName (name : List Char) : Option Opcode :=
  (commandNames.find? fun row => row.2.2.toList = name).map (·.1)

/-! ## Writing -/

/-- The digit of a value below 16, upper case as the spec writes hexadecimal. -/
def digitChar (n : Nat) : Char := if n < 10 then Char.ofNat (48 + n) else Char.ofNat (55 + n)

/-- The digits of `n` before those of `acc`, most significant first; `fuel` bounds their number. -/
def digitsBefore (base : Nat) : Nat → Nat → List Char → List Char
  | 0, _, acc => acc
  | fuel + 1, n, acc =>
    if n < base then digitChar n :: acc
    else digitsBefore base fuel (n / base) (digitChar (n % base) :: acc)

/-- A natural number in decimal. -/
def writeDecimal (n : Nat) : List Char := digitsBefore 10 (n + 1) n []

/-- A natural number as `0x` and hexadecimal digits (30_encoding R95). -/
def writeHex (n : Nat) : List Char := '0' :: 'x' :: digitsBefore 16 (n + 1) n []

/-- `n` in exactly `count` hexadecimal digits, the leading ones zero. -/
def hexDigits : Nat → Nat → List Char
  | 0, _ => []
  | count + 1, n => hexDigits count (n / 16) ++ [digitChar (n % 16)]

/-- A byte in two hexadecimal digits (30_encoding R99). -/
def writeByteHex (b : Byte) : List Char := hexDigits 2 b.toNat

/-- A byte sequence as `[DE AD BE EF]` (30_encoding R95). -/
def writeByteList (data : List Byte) : List Char :=
  '[' :: (List.intercalate [' '] (data.map writeByteHex) ++ [']'])

/-- The width argument, `8` or `16` (30_encoding R95). -/
def writeWidth : Width → List Char
  | .w8 => ['8']
  | .w16 => ['1', '6']

/-- A flag value, `0` or `1`. -/
def writeFlag (v : Bool) : List Char := if v then ['1'] else ['0']

/-- A segment or an offset. -/
def writeHalf (v : Half) : List Char := '0' :: 'x' :: hexDigits 4 v.toNat

/-- A value argument. -/
def writeValue (v : Word) : List Char := writeHex v.toNat

/-- The arguments of the call, in the source's order (30_encoding R81, R95). -/
def textArguments : Instr → List (List Char)
  | .setSign w a => [writeWidth w, writeValue a]
  | .setParity a => [writeValue a]
  | .setZero w a => [writeWidth w, writeValue a]
  | .setAux a b c => [writeValue a, writeValue b, writeValue c]
  | .setOvfAdd w a b c => [writeWidth w, writeValue a, writeValue b, writeValue c]
  | .setOvfSub w a b c => [writeWidth w, writeValue a, writeValue b, writeValue c]
  | .setCarry w a => [writeWidth w, writeValue a]
  | .deserialize a => [writeValue a]
  | .serialize => []
  | .wrTf v => [writeFlag v]
  | .wrIf v => [writeFlag v]
  | .wrDf v => [writeFlag v]
  | .translate _ seg off => [writeHalf seg, writeHalf off]
  | .readByte _ seg off => [writeHalf seg, writeHalf off]
  | .readWord _ seg off => [writeHalf seg, writeHalf off]
  | .writeByte _ seg off a => [writeHalf seg, writeHalf off, writeValue a]
  | .writeWord _ seg off a => [writeHalf seg, writeHalf off, writeValue a]
  | .readBlock _ seg off a => [writeHalf seg, writeHalf off, writeDecimal a.toNat]
  | .writeBlock _ seg off data => [writeHalf seg, writeHalf off, writeByteList data]
  | .snapshot _ => []

/-- `h<n>.` before an MMU command (30_encoding R95). -/
def writeHandle : Option Nat → List Char
  | some h => 'h' :: (writeDecimal h ++ ['.'])
  | none => []

/-- The textual form of a command (30_encoding R95). -/
def writeText (i : Instr) : List Char :=
  writeHandle i.handle ++ textName i.opcode ++
    ('(' :: (List.intercalate [',', ' '] (textArguments i) ++ [')']))

/-- The canonical image in seven dotted groups, with the bytes of a WRITE_BLOCK after a colon
(30_encoding R99). -/
def writeImage (i : Instr) : List Char :=
  let c := i.toCommand
  List.intercalate ['.']
    [ hexDigits 2 c.op.toNat, hexDigits 2 c.h, hexDigits 4 c.seg.toNat, hexDigits 4 c.off.toNat,
      hexDigits 8 c.a.toNat, hexDigits 8 c.b.toNat, hexDigits 8 c.c.toNat ] ++
  (if i.opcode = .writeBlock then ':' :: (c.data.map writeByteHex).flatten else [])

/-- The result of a command as it is written after `->` (30_encoding R95): nothing for a completed
command that fills no result, the status name for a fault or a refusal. -/
def writeResult (i : Instr) (r : Response) : List Char :=
  match r.status with
  | .illegalCommand => "-> !ILLEGAL_COMMAND".toList
  | .boundsFault => "-> !BOUNDS_FAULT".toList
  | .reentrantAccess => "-> !REENTRANT_ACCESS".toList
  | .halted => "-> !HALTED".toList
  | .ok =>
    match i.opcode.format with
    | .fN | .mA => "-> ".toList ++ writeHex r.r.toNat
    | .mAL | .mN => "-> ".toList ++ writeByteList r.rdata
    | .fWV | .fV | .fR | .fWR | .fB | .mAV | .mAD => []

/-! ## Reading -/

/-- The value of a digit, either case. -/
def digitValue (c : Char) : Option Nat :=
  let n := c.toNat
  if 48 ≤ n ∧ n ≤ 57 then some (n - 48)
  else if 65 ≤ n ∧ n ≤ 70 then some (n - 55)
  else if 97 ≤ n ∧ n ≤ 102 then some (n - 87)
  else none

/-- Digits of a base, most significant first, after the value `acc`. -/
def readDigits (base : Nat) : List Char → Nat → Option Nat
  | [], acc => some acc
  | c :: cs, acc =>
    match digitValue c with
    | some d => if d < base then readDigits base cs (acc * base + d) else none
    | none => none

/-- A number in decimal or `0x` hexadecimal (30_encoding R95); no digits is no number. -/
def readNumber : List Char → Option Nat
  | [] => none
  | '0' :: 'x' :: [] => none
  | '0' :: 'x' :: d :: cs => readDigits 16 (d :: cs) 0
  | cs => readDigits 10 cs 0

/-- The parts of a text between separators. -/
def cutAt (sep : Char) : List Char → List (List Char)
  | [] => [[]]
  | c :: cs =>
    if c = sep then [] :: cutAt sep cs
    else
      match cutAt sep cs with
      | w :: ws => (c :: w) :: ws
      | [] => [[c]]

/-- A text without spaces at its ends. -/
def trimSpaces (cs : List Char) : List Char :=
  ((cs.dropWhile (· = ' ')).reverse.dropWhile (· = ' ')).reverse

/-- A number that fits a field of `n` bits; one that does not is refused (30_encoding R97). -/
def readBits (n : Nat) (cs : List Char) : Option (BitVec n) :=
  match readNumber cs with
  | some v => if v < 2 ^ n then some (BitVec.ofNat n v) else none
  | none => none

/-- A width, written `8` or `16` and nothing else (30_encoding R95, R97). -/
def readWidth (cs : List Char) : Option Width :=
  if cs = ['8'] then some .w8 else if cs = ['1', '6'] then some .w16 else none

/-- A flag value. -/
def readFlag (cs : List Char) : Option Bool :=
  match readNumber cs with
  | some 0 => some false
  | some 1 => some true
  | _ => none

/-- A byte in two hexadecimal digits. -/
def readByteHex : List Char → Option Byte
  | [x, y] => (readDigits 16 [x, y] 0).map (BitVec.ofNat 8)
  | _ => none

/-- A byte sequence in brackets, the bytes separated by spaces (30_encoding R95). -/
def readByteList : List Char → Option (List Byte)
  | '[' :: cs =>
    match cs.reverse with
    | ']' :: inside =>
      ((cutAt ' ' inside.reverse).filter (fun w => w ≠ [])).mapM readByteHex
    | _ => none
  | _ => none

/-- The command a name, a handle and arguments make (30_encoding R95, R96). A handle before a FLAGS command,
a wrong number of arguments and an argument that does not fit its field are refused (R97). -/
def commandOfCall (o : Opcode) (h : Option Nat) (args : List (List Char)) : Option Instr :=
  match o, h, args with
  | .setSign, none, [w, v] => do return .setSign (← readWidth w) (← readBits 32 v)
  | .setParity, none, [v] => do return .setParity (← readBits 32 v)
  | .setZero, none, [w, v] => do return .setZero (← readWidth w) (← readBits 32 v)
  | .setAux, none, [x, y, z] => do return .setAux (← readBits 32 x) (← readBits 32 y) (← readBits 32 z)
  | .setOvfAdd, none, [w, x, y, z] => do
    return .setOvfAdd (← readWidth w) (← readBits 32 x) (← readBits 32 y) (← readBits 32 z)
  | .setOvfSub, none, [w, x, y, z] => do
    return .setOvfSub (← readWidth w) (← readBits 32 x) (← readBits 32 y) (← readBits 32 z)
  | .setCarry, none, [w, v] => do return .setCarry (← readWidth w) (← readBits 32 v)
  | .deserialize, none, [v] => do return .deserialize (← readBits 32 v)
  | .serialize, none, [] => some .serialize
  | .wrTf, none, [v] => do return .wrTf (← readFlag v)
  | .wrIf, none, [v] => do return .wrIf (← readFlag v)
  | .wrDf, none, [v] => do return .wrDf (← readFlag v)
  | .translate, h, [s, f] => do return .translate (h.getD 0) (← readBits 16 s) (← readBits 16 f)
  | .readByte, h, [s, f] => do return .readByte (h.getD 0) (← readBits 16 s) (← readBits 16 f)
  | .readWord, h, [s, f] => do return .readWord (h.getD 0) (← readBits 16 s) (← readBits 16 f)
  | .writeByte, h, [s, f, v] => do
    return .writeByte (h.getD 0) (← readBits 16 s) (← readBits 16 f) (← readBits 32 v)
  | .writeWord, h, [s, f, v] => do
    return .writeWord (h.getD 0) (← readBits 16 s) (← readBits 16 f) (← readBits 32 v)
  | .readBlock, h, [s, f, v] => do
    return .readBlock (h.getD 0) (← readBits 16 s) (← readBits 16 f) (← readBits 32 v)
  | .writeBlock, h, [s, f, d] => do
    return .writeBlock (h.getD 0) (← readBits 16 s) (← readBits 16 f) (← readByteList d)
  | .snapshot, h, [] => some (.snapshot (h.getD 0))
  | _, _, _ => none

/-- The handle `h<n>.` at the head of a text, if it has one, and the rest (30_encoding R95). -/
def readHandle (cs : List Char) : Option Nat × List Char :=
  match cs with
  | 'h' :: d :: rest =>
    match cutAt '.' (d :: rest) with
    | [digits, call] =>
      match readDigits 10 digits 0 with
      | some n => if digits = [] then (none, cs) else (some n, call)
      | none => (none, cs)
    | _ => (none, cs)
  | _ => (none, cs)

/-- The command of one line of text, or nothing where the assembler refuses it (30_encoding R95, R97). -/
def readText (line : List Char) : Option Instr :=
  let (h, call) := readHandle (trimSpaces line)
  match cutAt '(' call with
  | [name, body] =>
    match opcodeOfName name, body.reverse with
    | some o, ')' :: inside =>
      let args := trimSpaces inside.reverse
      commandOfCall o h (if args = [] then [] else (cutAt ',' args).map trimSpaces)
    | _, _ => none
  | _ => none

end Sys2Proof.Machine
end

