-- ==== Sys2Proof/Safety.lean ====
section
/-!
DEFINITION. What counts as a good state and a sound one, in the terms the statements use: the good end of
a run and the launch premises (70_reset_and_hazards R228, R229), the invariants of the machine, and the byte the latest
earlier write left at an address (20_memory R67a).
-/

namespace Sys2Proof.Machine

/-- A run is good when `FAULT_CODE = 0` in its final state (70_reset_and_hazards R228). -/
abbrev State.Good (s : State) : Prop := s.faultCode = 0

/-- The launch premises of a claim about a command sequence (70_reset_and_hazards R229). -/
abbrev State.Launch (s : State) : Prop := s.faultCode = 0 ∧ s.busy = false

/-- The store is in its canonical form and lists only addresses that exist (20_memory R50, R64). -/
abbrev State.StoreSound (s : State) : Prop := s.mem.wf ∧ s.mem.within s.cfg.cap

/-- The reserved fields hold 0 (10_state R24). -/
abbrev Flags.ReservedClear (f : Flags) : Prop :=
  f.res1 = false ∧ f.res3 = false ∧ f.res5 = false ∧ f.res15 = false

/-- The operation codes that can raise `BoundsFault` (60_exceptions R181, R193). -/
def boundsFaultOps : List Byte := [0x82, 0x83, 0x84, 0x85, 0x86, 0x88]

/-- What the fault latch can hold when no access was reentrant: nothing, an `IllegalCommand` with address
0, or a `BoundsFault` of one of the six commands with an address translation can produce
(10_state R34, R35, 60_exceptions R181, R185). -/
abbrev State.LatchSound (s : State) : Prop :=
  (s.faultCode = 0 ∧ s.faultOp = 0 ∧ s.faultAddr = 0) ∨
  (s.faultCode = 1 ∧ s.faultAddr = 0) ∨
  (s.faultCode = 2 ∧ s.faultOp ∈ boundsFaultOps ∧ s.faultAddr ≤ 0x10FFEF)

/-- A response that is not OK carries no data (30_encoding R91). -/
abbrev State.ResponseSound (s : State) : Prop :=
  ∀ r ∈ s.rsp, r.status ≠ .ok → r.r = 0 ∧ r.rdata = []

/-- No response held is REENTRANT_ACCESS: the fault cannot happen while commands are indivisible steps
(60_exceptions R185). -/
abbrev State.ResponseNotReentrant (s : State) : Prop := ∀ r ∈ s.rsp, r.status ≠ .reentrantAccess

/-- The invariant of the machine: admissible parameters, a sound store, clear reserved fields, `BUSY = 0`
between commands (10_state R33), a sound latch, a sound response and none that is REENTRANT_ACCESS. -/
structure State.Inv (s : State) : Prop where
  admissible : s.cfg.Admissible
  store : s.StoreSound
  reserved : s.flags.ReservedClear
  idle : s.busy = false
  latch : s.LatchSound
  response : s.ResponseSound
  notReentrant : s.ResponseNotReentrant

/-- The state after a list of instructions, each executed as one command, in order (20_memory R67). -/
def execAll : List Instr → State → State
  | [], s => s
  | i :: rest, s =>
    match exec i s with
    | .next t => execAll rest t
    | .fault _ => s
    | .refused _ => s

/-- The linear base address and the number of bytes of an instruction's store access, when it makes one
(60_exceptions R186, the table of n). -/
def storeAccess (cap : Nat) : Instr → Option (Nat × Nat)
  | .readByte _ seg off => some (lin seg off, 1)
  | .readWord _ seg off => some (lin seg off, 2)
  | .writeByte _ seg off _ => some (lin seg off, 1)
  | .writeWord _ seg off _ => some (lin seg off, 2)
  | .readBlock _ seg off a => some (lin seg off, a.toNat)
  | .writeBlock _ seg off data => some (lin seg off, data.length)
  | .snapshot _ => some (0, cap)
  | _ => none

/-- The faults of an instruction whose store access is `n` bytes at `base` through handle `h`, in a state that is
not halted: each under its own condition, in the order of 41_mmu_ops R150, with the latch and the response
60_exceptions R189 gives and nothing else changed. -/
def State.AccessFaults (s : State) (i : Instr) (h base n : Nat) : Prop :=
  s.faultCode = 0 →
    (s.cfg.nHandles ≤ h →
      exec i s = .next { s with faultCode := 1, faultOp := i.op, faultAddr := 0,
                                rsp := some ⟨.illegalCommand, 0, []⟩ }) ∧
    (h < s.cfg.nHandles → s.busy = true →
      exec i s = .next { s with faultCode := 3, faultOp := i.op, faultAddr := base,
                                rsp := some ⟨.reentrantAccess, 0, []⟩ }) ∧
    (h < s.cfg.nHandles → s.busy = false → s.cfg.cap < base + n →
      exec i s = .next { s with faultCode := 2, faultOp := i.op, faultAddr := base,
                                rsp := some ⟨.boundsFault, 0, []⟩ })

/-- The same command carried by another handle (20_memory R63); a FLAGS command has none. -/
def reHandle (h : Nat) : Instr → Instr
  | .translate _ seg off => .translate h seg off
  | .readByte _ seg off => .readByte h seg off
  | .readWord _ seg off => .readWord h seg off
  | .writeByte _ seg off a => .writeByte h seg off a
  | .writeWord _ seg off a => .writeWord h seg off a
  | .readBlock _ seg off a => .readBlock h seg off a
  | .writeBlock _ seg off data => .writeBlock h seg off data
  | .snapshot _ => .snapshot h
  | i => i

/-- The byte an instruction stores at an address, when it stores one there (20_memory R57, R58, R62). -/
def storedByte : Instr → Nat → Option Byte
  | .writeByte _ seg off a, addr => if addr = lin seg off then some (a.extractLsb' 0 8) else none
  | .writeWord _ seg off a, addr =>
    if addr = lin seg off then some (a.extractLsb' 0 8)
    else if addr = lin seg off + 1 then some (a.extractLsb' 8 8)
    else none
  | .writeBlock _ seg off data, addr =>
    if lin seg off ≤ addr then data[addr - lin seg off]? else none
  | _, _ => none

/-- The value the latest write that covered an address left there, 0 when there is none; the newest
instruction is first (20_memory R67a). -/
def latestWrite : List Instr → Nat → Byte
  | [], _ => 0
  | i :: earlier, addr => (storedByte i addr).getD (latestWrite earlier addr)

end Sys2Proof.Machine
end

