-- ==== Sys2Proof/Certificates/Slice0/Obligations.lean ====
section
/-!
DEFINITION. The statements for the provers, family by family: encoding and text, the step, the FLAGS unit,
the MMU unit, faults and the halted condition, derived laws, invariants. Each docstring names the rules of
spec/ it formalises.
-/

open Sys2Proof Sys2Proof.Machine

/-! ## Encoding and text -/

/-- Images written out from 30_encoding R88, R99 and 95_test_vectors decode to the commands they stand for:
one or more of every family. -/
def Obligations.SpecImagesDecode : Prop :=
  decode [0x00, 0x00, 0x00, 0x00, 0x00, 0x00, 0x00, 0x00, 0x00, 0x80, 0x00, 0x00, 0x00, 0x00, 0x00, 0x00, 0x00, 0x00]
    = .ok (.setSign .w8 0x80) ∧
  decode [0x0B, 0x00, 0x00, 0x00, 0x00, 0x00, 0xFF, 0xFF, 0xFF, 0xFF, 0x00, 0x00, 0x00, 0x02, 0x00, 0x00, 0x00, 0x01]
    = .ok (.setOvfSub .w16 0xFFFFFFFF 2 1) ∧
  decode [0x13, 0x00, 0x00, 0x00, 0x00, 0x00, 0x00, 0x00, 0x00, 0x00, 0x00, 0x00, 0x00, 0x00, 0x00, 0x00, 0x00, 0x00]
    = .ok (.wrTf true) ∧
  decode [0x83, 0x01, 0x2F, 0xFF, 0x00, 0x0E, 0x00, 0x00, 0x00, 0x00, 0x00, 0x00, 0x00, 0x00, 0x00, 0x00, 0x00, 0x00]
    = .ok (.readWord 1 0x2FFF 0x000E) ∧
  decode [0x88, 0x00, 0x10, 0x00, 0x00, 0x00, 0x00, 0x00, 0x00, 0x00, 0x00, 0x00, 0x00, 0x00, 0x00, 0x00, 0x00, 0x00,
          0xDE, 0xAD, 0xBE, 0xEF]
    = .ok (.writeBlock 0 0x1000 0x0000 [0xDE, 0xAD, 0xBE, 0xEF]) ∧
  decode [0x03, 0x00, 0x00, 0x00, 0x00, 0x00, 0x00, 0x00, 0x00, 0x00, 0x00, 0x00, 0x00, 0x00, 0x00, 0x00, 0x00, 0x00]
    = .error (.reserved 0x03 .subOperand)

/-- The opcode map of 30_encoding R88: exactly the 28 listed values of `op` name a command, no two rows
select the same value, and a decoded value has `Z = 00`, its unit bit and its `S` bit where R85 puts them. -/
def Obligations.OpcodeMapHasExactly28Values : Prop :=
  ∀ op : Byte,
    ((∃ x, decodeOp op = .ok x) ↔
      op ∈ [0x00#8, 0x01#8, 0x02#8, 0x04#8, 0x05#8, 0x06#8, 0x08#8, 0x09#8, 0x0A#8, 0x0B#8, 0x0C#8, 0x0D#8,
            0x0E#8, 0x10#8, 0x12#8, 0x13#8, 0x14#8, 0x15#8, 0x16#8, 0x17#8, 0x80#8, 0x82#8, 0x83#8, 0x84#8,
            0x85#8, 0x86#8, 0x88#8, 0x8A#8]) ∧
    (opTable.filter fun row => row.selects op).length ≤ 1 ∧
    (∀ o s, decodeOp op = .ok (o, s) →
      op.extractLsb' 5 2 = 0#2 ∧ s = op.getLsbD 0 ∧
      (op.getLsbD 7 = true ↔ Field.h ∈ o.format.consumes))

/-- 30_encoding R90, R99: decoding the canonical image of a well-formed instruction gives it back, with every
operand at every value. -/
def Obligations.DecodeOfEncodeIsIdentity : Prop :=
  ∀ i : Instr, i.wellFormed = true → decode (encode i) = .ok i

/-- 30_encoding R90: two records with the same `op` that agree on the fields the format consumes are the same
command, decoded and executed, whatever stands on the other fields; and the record the encoder writes has
zeros there. -/
def Obligations.UnconsumedFieldsHaveNoInfluence : Prop :=
  (∀ (c c' : Command) (o : Opcode) (v : Bool),
    c.op = c'.op → decodeOp c.op = .ok (o, v) →
    c.keepOnly o.format.consumes = c'.keepOnly o.format.consumes →
    decodeCommand c = decodeCommand c' ∧ ∀ s, runCommand c s = runCommand c' s) ∧
  (∀ i : Instr, i.toCommand.keepOnly i.opcode.format.consumes = i.toCommand)

/-- The other direction of the round trip (30_encoding R99): encoding what a record decodes to gives that
record with its unconsumed fields zero. -/
def Obligations.EncodeOfDecodeIsCanonical : Prop :=
  ∀ (c : Command) (i : Instr), decodeCommand c = .ok i →
    i.toCommand = c.keepOnly i.opcode.format.consumes

/-- 30_encoding R95, R96: reading the written text of an instruction gives it back. -/
def Obligations.ReadTextOfWriteTextIsIdentity : Prop :=
  ∀ i : Instr, readText (writeText i) = some i

/-- 30_encoding R96: the twenty mnemonics and their textual names correspond one to one, each in its place
in the opcode map. -/
def Obligations.MnemonicsAndNamesOneToOne : Prop :=
  (∀ o : Opcode, opcodeOfName (textName o) = some o) ∧
  (∀ (o : Opcode) (name : List Char), opcodeOfName name = some o → name = textName o) ∧
  (commandNames.map fun row => row.1) = (opTable.map fun row => row.opcode) ∧
  (∀ row ∈ opTable, row.pattern = row.opcode.code)

/-! ## The step -/

/-- A step runs the decoded instruction: when the host's next move is a command that decodes to `i`, the step is
`exec i` in the state in which that move is made. -/
def Obligations.StepRunsTheDecodedInstruction : Prop :=
  ∀ (s : State) (c : Command) (rest : List HostMove) (i : Instr),
    s.host = .command c :: rest → decodeCommand c = .ok i →
    step s = exec i { s with host := rest }

/-- The placing of a table word: the very next step runs the instruction the decoder reads from it. -/
def Obligations.StepRunsThePlacedTableWord : Prop :=
  ∀ (s : State) (nbits w : Nat) (i : Instr),
    decodeTableWord nbits w = some i → step (s.withFetchWord nbits w) = exec i s

/-- 70_reset_and_hazards R210, R213: the reset input zeroes every piece of CORE's state at once, in every state, and leaves
the build parameters. (That the response is none and the host's further moves stay is the model's, log
entries 4 and 5.) -/
def Obligations.ResetInputZeroesEverything : Prop :=
  ∀ (s : State) (rest : List HostMove), s.host = .reset :: rest →
    ∃ t, step s = .next t ∧ t.flags = Flags.reset ∧ (∀ addr, t.mem.read addr = 0) ∧ t.mem = [] ∧
      t.busy = false ∧ t.faultCode = 0 ∧ t.faultOp = 0 ∧ t.faultAddr = 0 ∧ t.cfg = s.cfg ∧
      t.rsp = none ∧ t.host = rest

/-- 10_state R39: the value of every piece of state after reset; and, in every state, each of the twelve status
outputs equals the field it is named after (10_state R31, R34, R35; that they are a function of the state is log
entry 12). -/
def Obligations.ResetValues : Prop :=
  State.reset.flags = ⟨false, false, false, false, false, false, false, false, false, false, false, false, 0,
    false, false⟩ ∧
  pack State.reset.flags = 0x8000 ∧ (∀ addr, State.reset.mem.read addr = 0x00) ∧
  State.reset.busy = false ∧ State.reset.faultCode = 0 ∧ State.reset.faultOp = 0 ∧
  State.reset.faultAddr = 0 ∧
  State.reset.outputs = ⟨false, false, false, false, false, false, false, false, false, 0, 0, 0⟩ ∧
  ∀ s : State,
    s.outputs.cf = s.flags.cf ∧ s.outputs.pf = s.flags.pf ∧ s.outputs.af = s.flags.af ∧
    s.outputs.zf = s.flags.zf ∧ s.outputs.sf = s.flags.sf ∧ s.outputs.tf = s.flags.tf ∧
    s.outputs.if_ = s.flags.if_ ∧ s.outputs.df = s.flags.df ∧ s.outputs.of_ = s.flags.of_ ∧
    s.outputs.faultCode = s.faultCode ∧ s.outputs.faultOp = s.faultOp ∧ s.outputs.faultAddr = s.faultAddr

/-- The model's idle step (log entry 4, from 70_reset_and_hazards R228): with no move of the host left nothing changes. -/
def Obligations.IdleStepChangesNothing : Prop :=
  ∀ s : State, s.host = [] → step s = .next s

/-- Every step, from every state, completes in a next state: no hang, no stop (70_reset_and_hazards R228, 93 part 1: "every
command has exactly one outcome in every state"); it makes one move of the host and keeps the build
parameters (70_reset_and_hazards R213), and a command has a response (30_encoding R80). -/
def Obligations.EveryStepCompletes : Prop :=
  ∀ s : State, ∃ t, step s = .next t ∧ t.host = s.host.tail ∧ t.cfg = s.cfg ∧
    (∀ c rest, s.host = .command c :: rest → t.rsp.isSome = true)

/-! ## The FLAGS unit -/

/-- 40_flags_ops R112: SET_SIGN, its encoding, its result and its frame. -/
def Obligations.SetSignWritesTheSignBit : Prop :=
  (∀ c : Command, (c.op = 0x00 → decodeCommand c = .ok (.setSign .w8 c.a)) ∧
    (c.op = 0x01 → decodeCommand c = .ok (.setSign .w16 c.a))) ∧
  ∀ (s : State) (a : Word), s.faultCode = 0 →
    exec (.setSign .w8 a) s =
      .next { s with flags := { s.flags with sf := a.getLsbD 7 }, rsp := some ⟨.ok, 0, []⟩ } ∧
    exec (.setSign .w16 a) s =
      .next { s with flags := { s.flags with sf := a.getLsbD 15 }, rsp := some ⟨.ok, 0, []⟩ }

/-- 40_flags_ops R114: SET_PARITY is the test of bit 0, and of no other bit. -/
def Obligations.SetParityTestsBitZero : Prop :=
  (∀ c : Command, c.op = 0x02 → decodeCommand c = .ok (.setParity c.a)) ∧
  ∀ (s : State) (a : Word), s.faultCode = 0 →
    exec (.setParity a) s =
      .next { s with flags := { s.flags with pf := decide (a.toNat % 2 = 0) }, rsp := some ⟨.ok, 0, []⟩ }

/-- 40_flags_ops R116: SET_ZERO tests the low `w` bits and ignores those above. -/
def Obligations.SetZeroTestsTheLowBits : Prop :=
  (∀ c : Command, (c.op = 0x04 → decodeCommand c = .ok (.setZero .w8 c.a)) ∧
    (c.op = 0x05 → decodeCommand c = .ok (.setZero .w16 c.a))) ∧
  ∀ (s : State) (a : Word), s.faultCode = 0 →
    exec (.setZero .w8 a) s =
      .next { s with flags := { s.flags with zf := decide (a.toNat % 0x100 = 0) }, rsp := some ⟨.ok, 0, []⟩ } ∧
    exec (.setZero .w16 a) s =
      .next { s with flags := { s.flags with zf := decide (a.toNat % 0x10000 = 0) }, rsp := some ⟨.ok, 0, []⟩ }

/-- 40_flags_ops R118: SET_AUX is the exclusive or of bit 4 of its three operands. -/
def Obligations.SetAuxIsBitFourExclusiveOr : Prop :=
  (∀ c : Command, c.op = 0x06 → decodeCommand c = .ok (.setAux c.a c.b c.c)) ∧
  ∀ (s : State) (a b c : Word), s.faultCode = 0 →
    exec (.setAux a b c) s =
      .next { s with
        flags := { s.flags with af := a.getLsbD 4 ^^ b.getLsbD 4 ^^ c.getLsbD 4 }
        rsp := some ⟨.ok, 0, []⟩ }

/-- 40_flags_ops R120: SET_OVF_ADD by the sign bits of its operands. -/
def Obligations.SetOvfAddBySignBits : Prop :=
  (∀ c : Command, (c.op = 0x08 → decodeCommand c = .ok (.setOvfAdd .w8 c.a c.b c.c)) ∧
    (c.op = 0x09 → decodeCommand c = .ok (.setOvfAdd .w16 c.a c.b c.c))) ∧
  ∀ (s : State) (a b c : Word), s.faultCode = 0 →
    exec (.setOvfAdd .w8 a b c) s =
      .next { s with
        flags := { s.flags with
          of_ := (a.getLsbD 7 ^^ b.getLsbD 7) && (a.getLsbD 7 ^^ c.getLsbD 7) }
        rsp := some ⟨.ok, 0, []⟩ } ∧
    exec (.setOvfAdd .w16 a b c) s =
      .next { s with
        flags := { s.flags with
          of_ := (a.getLsbD 15 ^^ b.getLsbD 15) && (a.getLsbD 15 ^^ c.getLsbD 15) }
        rsp := some ⟨.ok, 0, []⟩ }

/-- 40_flags_ops R122: SET_OVF_SUB by the sign bits of its operands; it is not symmetric in operand1 and
operand2. -/
def Obligations.SetOvfSubBySignBits : Prop :=
  (∀ c : Command, (c.op = 0x0A → decodeCommand c = .ok (.setOvfSub .w8 c.a c.b c.c)) ∧
    (c.op = 0x0B → decodeCommand c = .ok (.setOvfSub .w16 c.a c.b c.c))) ∧
  ∀ (s : State) (a b c : Word), s.faultCode = 0 →
    exec (.setOvfSub .w8 a b c) s =
      .next { s with
        flags := { s.flags with
          of_ := (c.getLsbD 7 ^^ b.getLsbD 7) && (c.getLsbD 7 ^^ a.getLsbD 7) }
        rsp := some ⟨.ok, 0, []⟩ } ∧
    exec (.setOvfSub .w16 a b c) s =
      .next { s with
        flags := { s.flags with
          of_ := (c.getLsbD 15 ^^ b.getLsbD 15) && (c.getLsbD 15 ^^ a.getLsbD 15) }
        rsp := some ⟨.ok, 0, []⟩ }

/-- 40_flags_ops R125: SET_CARRY reads bit `w` and no other. -/
def Obligations.SetCarryReadsBitW : Prop :=
  (∀ c : Command, (c.op = 0x0C → decodeCommand c = .ok (.setCarry .w8 c.a)) ∧
    (c.op = 0x0D → decodeCommand c = .ok (.setCarry .w16 c.a))) ∧
  ∀ (s : State) (a : Word), s.faultCode = 0 →
    exec (.setCarry .w8 a) s =
      .next { s with flags := { s.flags with cf := a.getLsbD 8 }, rsp := some ⟨.ok, 0, []⟩ } ∧
    exec (.setCarry .w16 a) s =
      .next { s with flags := { s.flags with cf := a.getLsbD 16 }, rsp := some ⟨.ok, 0, []⟩ }

/-- 40_flags_ops R127 and 10_state R22: SERIALIZE answers the packed word, bit by bit, in every state: bits 1, 3, 5
are 0 and bit 15 is 1 whatever the register holds, and FLAGS is not changed. -/
def Obligations.SerializeAnswersThePackedWord : Prop :=
  (∀ c : Command, c.op = 0x10 → decodeCommand c = .ok .serialize) ∧
  ∀ s : State, s.faultCode = 0 →
    ∃ r : Word, exec .serialize s = .next { s with rsp := some ⟨.ok, r, []⟩ } ∧
      r.getLsbD 0 = s.flags.cf ∧ r.getLsbD 1 = false ∧ r.getLsbD 2 = s.flags.pf ∧ r.getLsbD 3 = false ∧
      r.getLsbD 4 = s.flags.af ∧ r.getLsbD 5 = false ∧ r.getLsbD 6 = s.flags.zf ∧ r.getLsbD 7 = s.flags.sf ∧
      r.getLsbD 8 = s.flags.tf ∧ r.getLsbD 9 = s.flags.if_ ∧ r.getLsbD 10 = s.flags.df ∧
      r.getLsbD 11 = s.flags.of_ ∧ r.getLsbD 12 = s.flags.iopl.getLsbD 0 ∧
      r.getLsbD 13 = s.flags.iopl.getLsbD 1 ∧ r.getLsbD 14 = s.flags.nt ∧ r.getLsbD 15 = true ∧
      (∀ k, 16 ≤ k → r.getLsbD k = false)

/-- 40_flags_ops R128: DESERIALIZE replaces the twelve variable fields and no other; bits 1, 3, 5, 15 and above 15
of the operand are ignored, and a following SERIALIZE answers `(a & 0x7FD5) | 0x8000`; no other command writes IOPL
or NT, and besides the evaluators none writes a computed flag. -/
def Obligations.DeserializeInstallsTwelveFields : Prop :=
  (∀ c : Command, c.op = 0x0E → decodeCommand c = .ok (.deserialize c.a)) ∧
  (∀ (s : State) (a : Word), s.faultCode = 0 →
    exec (.deserialize a) s =
      .next { s with
        flags := { s.flags with
          cf := a.getLsbD 0, pf := a.getLsbD 2, af := a.getLsbD 4, zf := a.getLsbD 6, sf := a.getLsbD 7,
          tf := a.getLsbD 8, if_ := a.getLsbD 9, df := a.getLsbD 10, of_ := a.getLsbD 11,
          iopl := a.extractLsb' 12 2, nt := a.getLsbD 14 }
        rsp := some ⟨.ok, 0, []⟩ }) ∧
  (∀ (s : State) (a : Word), s.faultCode = 0 →
    ∃ t u, exec (.deserialize a) s = .next t ∧ exec .serialize t = .next u ∧
      u.rsp = some ⟨.ok, (a &&& 0x7FD5) ||| 0x8000, []⟩) ∧
  (∀ (i : Instr) (s t : State), i.opcode ≠ .deserialize → exec i s = .next t →
    t.flags.iopl = s.flags.iopl ∧ t.flags.nt = s.flags.nt ∧
    (i.opcode ∉ [Opcode.setSign, .setParity, .setZero, .setAux, .setOvfAdd, .setOvfSub, .setCarry] →
      t.flags.cf = s.flags.cf ∧ t.flags.pf = s.flags.pf ∧ t.flags.af = s.flags.af ∧ t.flags.zf = s.flags.zf ∧
      t.flags.sf = s.flags.sf ∧ t.flags.of_ = s.flags.of_))

/-- 10_state R23: what Unpack installs; the two laws of Pack and Unpack, over every register value with the reserved fields clear and
over every word, and that the reserved fields are out of reach. -/
def Obligations.PackAndUnpackInvert : Prop :=
  (∀ f g : Flags, f.ReservedClear → g.ReservedClear → unpack (pack f) g = f) ∧
  (∀ (p : Half) (g : Flags), pack (unpack p g) = (p &&& 0x7FD5) ||| 0x8000) ∧
  (∀ (p : Half) (g : Flags), g.ReservedClear → (unpack p g).ReservedClear) ∧
  (∀ (p : Half) (g : Flags),
    unpack p g = { g with
      cf := p.getLsbD 0, pf := p.getLsbD 2, af := p.getLsbD 4, zf := p.getLsbD 6, sf := p.getLsbD 7,
      tf := p.getLsbD 8, if_ := p.getLsbD 9, df := p.getLsbD 10, of_ := p.getLsbD 11,
      iopl := p.extractLsb' 12 2, nt := p.getLsbD 14 })

/-- 40_flags_ops R130, R131, R132: the three direct writes. -/
def Obligations.DirectWritesOfControlFlags : Prop :=
  (∀ c : Command,
    (c.op = 0x12 → decodeCommand c = .ok (.wrTf false)) ∧ (c.op = 0x13 → decodeCommand c = .ok (.wrTf true)) ∧
    (c.op = 0x14 → decodeCommand c = .ok (.wrIf false)) ∧ (c.op = 0x15 → decodeCommand c = .ok (.wrIf true)) ∧
    (c.op = 0x16 → decodeCommand c = .ok (.wrDf false)) ∧ (c.op = 0x17 → decodeCommand c = .ok (.wrDf true))) ∧
  ∀ (s : State) (v : Bool), s.faultCode = 0 →
    exec (.wrTf v) s = .next { s with flags := { s.flags with tf := v }, rsp := some ⟨.ok, 0, []⟩ } ∧
    exec (.wrIf v) s = .next { s with flags := { s.flags with if_ := v }, rsp := some ⟨.ok, 0, []⟩ } ∧
    exec (.wrDf v) s = .next { s with flags := { s.flags with df := v }, rsp := some ⟨.ok, 0, []⟩ }

/-- 40_flags_ops R110, 00_scope R3: a FLAGS-unit command always executes when CORE is not halted; its frame: the
store, `BUSY`, the fault latch, the host and the parameters are as they were, in every case; and it does not
read the MMU unit's state: with any store and any `BUSY` it does the same; the bit `W` selects width 8 or 16. -/
def Obligations.FlagsUnitCommandsNeverFault : Prop :=
  ∀ (i : Instr) (s : State), i.unit = .flags →
    (∃ t r, exec i s = .next t ∧ t.rsp = some r ∧ r.rdata = [] ∧
      (s.faultCode = 0 → r.status = .ok) ∧ (s.faultCode ≠ 0 → r.status = .halted ∧ t.flags = s.flags) ∧
      (i ≠ .serialize → r.r = 0)) ∧
    (∀ t, exec i s = .next t →
      t.mem = s.mem ∧ t.busy = s.busy ∧ t.faultCode = s.faultCode ∧ t.faultOp = s.faultOp ∧
      t.faultAddr = s.faultAddr ∧ t.host = s.host ∧ t.cfg = s.cfg ∧
      ∀ (m : Memory) (b : Bool), exec i { s with mem := m, busy := b } = .next { t with mem := m, busy := b }) ∧
    widthBits (widthOfBit false) = 8 ∧ widthBits (widthOfBit true) = 16

/-- 40_flags_ops R111: each evaluator writes exactly one field, and what it writes depends on its operands only:
from any two states that are not halted it writes the same value. -/
def Obligations.EvaluatorsWriteOneFlagFromOperands : Prop :=
  ∀ (s s' t t' : State), s.faultCode = 0 → s'.faultCode = 0 →
    (∀ w a, exec (.setSign w a) s = .next t → exec (.setSign w a) s' = .next t' →
      t.flags = { s.flags with sf := t.flags.sf } ∧ t.flags.sf = t'.flags.sf) ∧
    (∀ a, exec (.setParity a) s = .next t → exec (.setParity a) s' = .next t' →
      t.flags = { s.flags with pf := t.flags.pf } ∧ t.flags.pf = t'.flags.pf) ∧
    (∀ w a, exec (.setZero w a) s = .next t → exec (.setZero w a) s' = .next t' →
      t.flags = { s.flags with zf := t.flags.zf } ∧ t.flags.zf = t'.flags.zf) ∧
    (∀ a b c, exec (.setAux a b c) s = .next t → exec (.setAux a b c) s' = .next t' →
      t.flags = { s.flags with af := t.flags.af } ∧ t.flags.af = t'.flags.af) ∧
    (∀ w a b c, exec (.setOvfAdd w a b c) s = .next t → exec (.setOvfAdd w a b c) s' = .next t' →
      t.flags = { s.flags with of_ := t.flags.of_ } ∧ t.flags.of_ = t'.flags.of_) ∧
    (∀ w a b c, exec (.setOvfSub w a b c) s = .next t → exec (.setOvfSub w a b c) s' = .next t' →
      t.flags = { s.flags with of_ := t.flags.of_ } ∧ t.flags.of_ = t'.flags.of_) ∧
    (∀ w a, exec (.setCarry w a) s = .next t → exec (.setCarry w a) s' = .next t' →
      t.flags = { s.flags with cf := t.flags.cf } ∧ t.flags.cf = t'.flags.cf)

/-- 10_state R26, R27, R28, R29, over all instructions and the reset input: a step that changes a flag is that
flag's own command, a DESERIALIZE or a reset; a step that changes a hidden field is a DESERIALIZE or a reset;
only a reset changes a reserved field. -/
def Obligations.OnlyTheNamedWritersChangeAFlag : Prop :=
  ∀ (s t : State), step s = .next t → s.host.head? ≠ some .reset →
    (t.flags.res1 = s.flags.res1 ∧ t.flags.res3 = s.flags.res3 ∧ t.flags.res5 = s.flags.res5 ∧
      t.flags.res15 = s.flags.res15) ∧
    (t.flags ≠ s.flags → ∃ c rest i, s.host = .command c :: rest ∧ decodeCommand c = .ok i ∧
      (i.opcode = .deserialize ∨
        (t.flags.iopl = s.flags.iopl ∧ t.flags.nt = s.flags.nt ∧
          (t.flags.cf ≠ s.flags.cf → i.opcode = .setCarry) ∧
          (t.flags.pf ≠ s.flags.pf → i.opcode = .setParity) ∧
          (t.flags.af ≠ s.flags.af → i.opcode = .setAux) ∧
          (t.flags.zf ≠ s.flags.zf → i.opcode = .setZero) ∧
          (t.flags.sf ≠ s.flags.sf → i.opcode = .setSign) ∧
          (t.flags.of_ ≠ s.flags.of_ → i.opcode = .setOvfAdd ∨ i.opcode = .setOvfSub) ∧
          (t.flags.tf ≠ s.flags.tf → i.opcode = .wrTf) ∧
          (t.flags.if_ ≠ s.flags.if_ → i.opcode = .wrIf) ∧
          (t.flags.df ≠ s.flags.df → i.opcode = .wrDf))))

/-- 10_state R36: no flag has an effect. Whatever FLAGS holds, every command but SERIALIZE answers the same and
does the same to everything outside FLAGS, an MMU command leaves FLAGS alone, and each field of FLAGS is either
kept or gets a value that does not depend on FLAGS. -/
def Obligations.NoFlagHasAnyEffect : Prop :=
  ∀ (i : Instr) (s t t' : State) (f : Flags), i ≠ .serialize →
    exec i s = .next t → exec i { s with flags := f } = .next t' →
    t' = { t with flags := t'.flags } ∧ (i.unit = .mmu → t.flags = s.flags ∧ t'.flags = f) ∧
    (t.flags.cf = s.flags.cf ∧ t'.flags.cf = f.cf ∨ t.flags.cf = t'.flags.cf) ∧
    (t.flags.pf = s.flags.pf ∧ t'.flags.pf = f.pf ∨ t.flags.pf = t'.flags.pf) ∧
    (t.flags.af = s.flags.af ∧ t'.flags.af = f.af ∨ t.flags.af = t'.flags.af) ∧
    (t.flags.zf = s.flags.zf ∧ t'.flags.zf = f.zf ∨ t.flags.zf = t'.flags.zf) ∧
    (t.flags.sf = s.flags.sf ∧ t'.flags.sf = f.sf ∨ t.flags.sf = t'.flags.sf) ∧
    (t.flags.tf = s.flags.tf ∧ t'.flags.tf = f.tf ∨ t.flags.tf = t'.flags.tf) ∧
    (t.flags.if_ = s.flags.if_ ∧ t'.flags.if_ = f.if_ ∨ t.flags.if_ = t'.flags.if_) ∧
    (t.flags.df = s.flags.df ∧ t'.flags.df = f.df ∨ t.flags.df = t'.flags.df) ∧
    (t.flags.of_ = s.flags.of_ ∧ t'.flags.of_ = f.of_ ∨ t.flags.of_ = t'.flags.of_) ∧
    (t.flags.iopl = s.flags.iopl ∧ t'.flags.iopl = f.iopl ∨ t.flags.iopl = t'.flags.iopl) ∧
    (t.flags.nt = s.flags.nt ∧ t'.flags.nt = f.nt ∨ t.flags.nt = t'.flags.nt)

/-! ## The MMU unit -/

/-- 41_mmu_ops R151 and 20_memory R53: TRANSLATE answers `seg * 16 + off` exactly, in every state, `BUSY` or not, for
every pair, also at and above `CAP`; nothing else changes; an invalid handle raises `IllegalCommand`. -/
def Obligations.TranslateIsExact : Prop :=
  (∀ c : Command, c.op = 0x80 → decodeCommand c = .ok (.translate c.h c.seg c.off)) ∧
  ∀ (s : State) (h : Nat) (seg off : Half), s.faultCode = 0 →
    (h < s.cfg.nHandles →
      ∃ r : Word, exec (.translate h seg off) s = .next { s with rsp := some ⟨.ok, r, []⟩ } ∧
        r.toNat = seg.toNat * 16 + off.toNat) ∧
    (s.cfg.nHandles ≤ h →
      exec (.translate h seg off) s =
        .next { s with faultCode := 1, faultOp := 0x80, faultAddr := 0, rsp := some ⟨.illegalCommand, 0, []⟩ })

/-- 41_mmu_ops R153, R154: the byte and the little-endian word at the linear address, zero-extended; the store is not
changed; and the faults of both. -/
def Obligations.ReadByteAndReadWordAnswerTheStore : Prop :=
  (∀ c : Command, (c.op = 0x82 → decodeCommand c = .ok (.readByte c.h c.seg c.off)) ∧
    (c.op = 0x83 → decodeCommand c = .ok (.readWord c.h c.seg c.off))) ∧
  (∀ (s : State) (h : Nat) (seg off : Half), s.faultCode = 0 → h < s.cfg.nHandles → s.busy = false →
    (lin seg off + 1 ≤ s.cfg.cap →
      ∃ r : Word, exec (.readByte h seg off) s = .next { s with rsp := some ⟨.ok, r, []⟩ } ∧
        r.toNat = (s.mem.read (lin seg off)).toNat) ∧
    (lin seg off + 2 ≤ s.cfg.cap →
      ∃ r : Word, exec (.readWord h seg off) s = .next { s with rsp := some ⟨.ok, r, []⟩ } ∧
        r.toNat = (s.mem.read (lin seg off)).toNat + 256 * (s.mem.read (lin seg off + 1)).toNat)) ∧
  ∀ (s : State) (h : Nat) (seg off : Half),
    s.AccessFaults (.readByte h seg off) h (lin seg off) 1 ∧
    s.AccessFaults (.readWord h seg off) h (lin seg off) 2

/-- 41_mmu_ops R156, R157: the byte and the word form of the write, with every byte of the store afterwards; and
the faults of both. -/
def Obligations.WriteByteAndWriteWordStore : Prop :=
  (∀ c : Command, (c.op = 0x84 → decodeCommand c = .ok (.writeByte c.h c.seg c.off c.a)) ∧
    (c.op = 0x85 → decodeCommand c = .ok (.writeWord c.h c.seg c.off c.a))) ∧
  (∀ (s : State) (h : Nat) (seg off : Half) (a : Word),
    s.faultCode = 0 → h < s.cfg.nHandles → s.busy = false → s.mem.wf →
    (lin seg off + 1 ≤ s.cfg.cap →
      ∃ m, exec (.writeByte h seg off a) s = .next { s with mem := m, rsp := some ⟨.ok, 0, []⟩ } ∧
        ∀ addr, m.read addr = if addr = lin seg off then a.extractLsb' 0 8 else s.mem.read addr) ∧
    (lin seg off + 2 ≤ s.cfg.cap →
      ∃ m, exec (.writeWord h seg off a) s = .next { s with mem := m, rsp := some ⟨.ok, 0, []⟩ } ∧
        ∀ addr, m.read addr =
          if addr = lin seg off then a.extractLsb' 0 8
          else if addr = lin seg off + 1 then a.extractLsb' 8 8
          else s.mem.read addr)) ∧
  ∀ (s : State) (h : Nat) (seg off : Half) (a : Word),
    s.AccessFaults (.writeByte h seg off a) h (lin seg off) 1 ∧
    s.AccessFaults (.writeWord h seg off a) h (lin seg off) 2

/-- 41_mmu_ops R159, R163: the blocks of READ_BLOCK and SNAPSHOT: their length and every byte; the store is not
changed; and the faults of both. -/
def Obligations.ReadBlockAndSnapshotAnswerTheStore : Prop :=
  (∀ c : Command, (c.op = 0x86 → decodeCommand c = .ok (.readBlock c.h c.seg c.off c.a)) ∧
    (c.op = 0x8A → decodeCommand c = .ok (.snapshot c.h))) ∧
  (∀ (s : State) (h : Nat), s.faultCode = 0 → h < s.cfg.nHandles → s.busy = false →
    (∀ (seg off : Half) (a : Word), lin seg off + a.toNat ≤ s.cfg.cap →
      ∃ data : List Byte, exec (.readBlock h seg off a) s = .next { s with rsp := some ⟨.ok, 0, data⟩ } ∧
        data.length = a.toNat ∧ ∀ i, i < a.toNat → data[i]? = some (s.mem.read (lin seg off + i))) ∧
    (∃ data : List Byte, exec (.snapshot h) s = .next { s with rsp := some ⟨.ok, 0, data⟩ } ∧
      data.length = s.cfg.cap ∧ ∀ i, i < s.cfg.cap → data[i]? = some (s.mem.read i))) ∧
  ∀ (s : State) (h : Nat),
    (∀ (seg off : Half) (a : Word), s.AccessFaults (.readBlock h seg off a) h (lin seg off) a.toNat) ∧
    s.AccessFaults (.snapshot h) h 0 s.cfg.cap

/-- 41_mmu_ops R161: WRITE_BLOCK stores the whole sequence upward from the base in one step and nothing else; an
empty sequence stores nothing; and its faults. -/
def Obligations.WriteBlockStoresTheSequence : Prop :=
  (∀ c : Command, c.op = 0x88 → decodeCommand c = .ok (.writeBlock c.h c.seg c.off c.data)) ∧
  (∀ (s : State) (h : Nat) (seg off : Half) (data : List Byte),
    s.faultCode = 0 → h < s.cfg.nHandles → s.busy = false → s.mem.wf →
    lin seg off + data.length ≤ s.cfg.cap →
    ∃ m, exec (.writeBlock h seg off data) s = .next { s with mem := m, rsp := some ⟨.ok, 0, []⟩ } ∧
      (∀ i (hi : i < data.length), m.read (lin seg off + i) = data[i]) ∧
      (∀ addr, addr < lin seg off ∨ lin seg off + data.length ≤ addr → m.read addr = s.mem.read addr)) ∧
  ∀ (s : State) (h : Nat) (seg off : Half) (data : List Byte),
    s.AccessFaults (.writeBlock h seg off data) h (lin seg off) data.length

/-- The frame of the MMU unit (41_mmu_ops R150, R158d, 20_memory R57, R58), whatever the outcome: FLAGS, `BUSY`, the
host and the parameters are as they were; the latch is too unless the command faulted; a command that stores
nothing leaves the store, and the others change no byte outside those they store to. -/
def Obligations.MmuCommandsFrame : Prop :=
  ∀ (i : Instr) (s t : State), i.unit = .mmu → exec i s = .next t →
    t.flags = s.flags ∧ t.busy = s.busy ∧ t.host = s.host ∧ t.cfg = s.cfg ∧
    (∀ r, t.rsp = some r → r.status = .ok ∨ r.status = .halted →
      t.faultCode = s.faultCode ∧ t.faultOp = s.faultOp ∧ t.faultAddr = s.faultAddr) ∧
    (i.opcode = .translate ∨ i.opcode = .readByte ∨ i.opcode = .readWord ∨ i.opcode = .readBlock ∨
      i.opcode = .snapshot → t.mem = s.mem) ∧
    (∀ h seg off a, i = .writeByte h seg off a →
      ∀ addr, addr ≠ lin seg off → t.mem.read addr = s.mem.read addr) ∧
    (∀ h seg off a, i = .writeWord h seg off a →
      ∀ addr, addr ≠ lin seg off → addr ≠ lin seg off + 1 → t.mem.read addr = s.mem.read addr) ∧
    (∀ h seg off data, i = .writeBlock h seg off data →
      ∀ addr, addr < lin seg off ∨ lin seg off + data.length ≤ addr → t.mem.read addr = s.mem.read addr)

/-- 10_state R32, 70_reset_and_hazards R211: MEM is changed only by WRITE_BYTE, WRITE_WORD, WRITE_BLOCK and reset. -/
def Obligations.OnlyWritesAndResetChangeTheStore : Prop :=
  ∀ (s t : State), step s = .next t → t.mem ≠ s.mem →
    (∃ rest, s.host = .reset :: rest) ∨
    (∃ c rest i, s.host = .command c :: rest ∧ decodeCommand c = .ok i ∧
      (i.opcode = .writeByte ∨ i.opcode = .writeWord ∨ i.opcode = .writeBlock))

/-- 20_memory R63: the effect and the result of a command do not depend on which valid handle carries it. -/
def Obligations.ValidHandlesAreInterchangeable : Prop :=
  ∀ (i : Instr) (s : State) (h h' : Nat), i.handle = some h → h < s.cfg.nHandles → h' < s.cfg.nHandles →
    exec (reHandle h' i) s = exec i s

/-! ## Faults and the halted condition -/

/-- 60_exceptions R183: a reserved `op`, and an MMU command with a handle of `N_HANDLES` or more, raise
`IllegalCommand` and do nothing else; with `N_HANDLES` a power of two and a handle that fits the `HB` bits of
its field the second cause does not arise. -/
def Obligations.IllegalCommandCauses : Prop :=
  (∀ (s : State) (c : Command) (rest : List HostMove) (e : DecodeError),
    s.host = .command c :: rest → decodeCommand c = .error e → s.faultCode = 0 →
    step s = .next { s with host := rest, faultCode := 1, faultOp := c.op, faultAddr := 0,
                            rsp := some ⟨.illegalCommand, 0, []⟩ }) ∧
  (∀ (s : State) (i : Instr) (h : Nat), i.handle = some h → s.cfg.nHandles ≤ h → s.faultCode = 0 →
    exec i s = .next { s with faultCode := 1, faultOp := i.op, faultAddr := 0,
                              rsp := some ⟨.illegalCommand, 0, []⟩ }) ∧
  (∀ (cfg : Config) (k h : Nat), 1 ≤ k → cfg.nHandles = 2 ^ k → h < 2 ^ cfg.handleBits → h < cfg.nHandles)

/-- 60_exceptions R184, R189: a command that accesses the store while `BUSY = 1` raises `ReentrantAccess` with its
linear address, or 0 for SNAPSHOT; it is not performed, and `BUSY` stays. -/
def Obligations.ReentrantAccessWhileBusy : Prop :=
  ∀ (s : State) (i : Instr) (h base n : Nat), i.handle = some h → h < s.cfg.nHandles → s.faultCode = 0 →
    storeAccess s.cfg.cap i = some (base, n) → s.busy = true →
    exec i s = .next { s with faultCode := 3, faultOp := i.op, faultAddr := base,
                              rsp := some ⟨.reentrantAccess, 0, []⟩ }

/-- 60_exceptions R186, R188, R189: an access of n bytes that is not in range raises `BoundsFault` with the
translated base address, moves no byte and changes nothing but the latch and the response; and only such an access
does: one in range does not, TRANSLATE makes no access, SNAPSHOT is always in range. -/
def Obligations.BoundsFaultOutOfRange : Prop :=
  (∀ (s : State) (i : Instr) (h base n : Nat), i.handle = some h → h < s.cfg.nHandles → s.faultCode = 0 →
    s.busy = false → storeAccess s.cfg.cap i = some (base, n) → s.cfg.cap < base + n →
    exec i s = .next { s with faultCode := 2, faultOp := i.op, faultAddr := base,
                              rsp := some ⟨.boundsFault, 0, []⟩ }) ∧
  (∀ (i : Instr) (s t : State) (r : Response), exec i s = .next t → t.rsp = some r → r.status = .boundsFault →
    i.opcode ≠ .translate ∧ i.opcode ≠ .snapshot ∧
    ∃ base n, storeAccess s.cfg.cap i = some (base, n) ∧ s.cfg.cap < base + n)

/-- 60_exceptions R190: a halted CORE refuses every command, legal or not, and changes no state but for the
response; the status outputs keep showing the fields as the fault left them. -/
def Obligations.HaltedRefusesEveryCommand : Prop :=
  ∀ (s : State) (c : Command) (rest : List HostMove), s.host = .command c :: rest → s.faultCode ≠ 0 →
    ∃ t, step s = .next t ∧ t = { s with host := rest, rsp := some ⟨.halted, 0, []⟩ } ∧
      t.outputs = s.outputs ∧
      t.outputs = ⟨s.flags.cf, s.flags.pf, s.flags.af, s.flags.zf, s.flags.sf, s.flags.tf, s.flags.if_, s.flags.df,
        s.flags.of_, s.faultCode, s.faultOp, s.faultAddr⟩

/-- 60_exceptions R192: one outcome a command, in the fixed order HALTED, IllegalCommand, ReentrantAccess,
BoundsFault, OK. -/
def Obligations.OutcomePriority : Prop :=
  ∀ (s : State) (c : Command) (rest : List HostMove), s.host = .command c :: rest →
    ∃ t r, step s = .next t ∧ t.rsp = some r ∧
      r.status =
        if s.faultCode ≠ 0 then .halted
        else match decodeCommand c with
          | .error _ => .illegalCommand
          | .ok i =>
            if i.handle.any (fun h => decide (s.cfg.nHandles ≤ h)) = true then .illegalCommand
            else match storeAccess s.cfg.cap i with
              | none => .ok
              | some (base, n) =>
                if s.busy = true then .reentrantAccess
                else if s.cfg.cap < base + n then .boundsFault
                else .ok

/-- 60_exceptions R189, 30_encoding R84, 10_state R34, R35: fault entry. A command that meets a running CORE and is not
answered OK leaves the code of its status in the latch, with its own `op` and the address of its access, 0 for
an `IllegalCommand` and for SNAPSHOT, and nothing else changes; one that is answered OK leaves the latch. -/
def Obligations.FaultEntryRecordsTheCommand : Prop :=
  ∀ (s t : State) (c : Command) (rest : List HostMove) (r : Response), s.host = .command c :: rest →
    s.faultCode = 0 → step s = .next t → t.rsp = some r →
    t.faultCode.setWidth 3 = r.status.code ∧
    (r.status = .ok → t.faultOp = s.faultOp ∧ t.faultAddr = s.faultAddr) ∧
    (r.status ≠ .ok →
      t = { s with host := rest, faultCode := t.faultCode, faultOp := c.op, faultAddr := t.faultAddr,
                   rsp := some ⟨r.status, 0, []⟩ }) ∧
    (r.status = .illegalCommand → t.faultAddr = 0) ∧
    (r.status = .boundsFault → t.faultAddr = lin c.seg c.off) ∧
    (r.status = .reentrantAccess → t.faultAddr = if c.op = 0x8A then 0 else lin c.seg c.off)

/-- 60_exceptions R188 and 30_encoding R91: all or nothing. A command that is not answered OK has no effect on
FLAGS, the store or `BUSY` and returns no data, not even the part it could have read. -/
def Obligations.FaultsAreAllOrNothing : Prop :=
  ∀ (s t : State) (c : Command) (rest : List HostMove) (r : Response), s.host = .command c :: rest →
    step s = .next t → t.rsp = some r → r.status ≠ .ok →
    t.flags = s.flags ∧ t.mem = s.mem ∧ t.busy = s.busy ∧ r.r = 0 ∧ r.rdata = []

/-- 10_state R34, 60_exceptions R191: over any number of steps in which the host applies no reset, a halted CORE
keeps its latch, FLAGS, the store and `BUSY`: the latch holds the first and only fault. -/
def Obligations.HaltedUntilReset : Prop :=
  ∀ (n : Nat) (s : State), s.faultCode ≠ 0 → HostMove.reset ∉ s.host.take n →
    ∃ t, Host.Core.run core n s = .next t ∧ t.flags = s.flags ∧ t.mem = s.mem ∧ t.busy = s.busy ∧
      t.faultCode = s.faultCode ∧ t.faultOp = s.faultOp ∧ t.faultAddr = s.faultAddr

/-! ## Derived laws -/

/-- 41_mmu_ops R158, 20_memory R54, R63: a value written through one pair and handle is read back through every
aliasing pair and every handle, and no other byte of the store changes. -/
def Obligations.ReadAfterWriteThroughAnyAlias : Prop :=
  ∀ (s : State) (h h' : Nat) (seg off seg' off' : Half) (v : Word),
    s.faultCode = 0 → s.busy = false → s.mem.wf → h < s.cfg.nHandles → h' < s.cfg.nHandles →
    (lin seg off = lin seg' off' → lin seg off + 1 ≤ s.cfg.cap →
      ∃ t u r, exec (.writeByte h seg off v) s = .next t ∧ exec (.readByte h' seg' off') t = .next u ∧
        u.rsp = some ⟨.ok, r, []⟩ ∧ r.toNat = v.toNat % 0x100) ∧
    (lin seg off = lin seg' off' → lin seg off + 2 ≤ s.cfg.cap →
      ∃ t u r, exec (.writeWord h seg off v) s = .next t ∧ exec (.readWord h' seg' off') t = .next u ∧
        u.rsp = some ⟨.ok, r, []⟩ ∧ r.toNat = v.toNat % 0x10000) ∧
    (lin seg off = lin seg' off' → lin seg off + 2 ≤ s.cfg.cap →
      ∃ t u r, exec (.writeWord h seg off v) s = .next t ∧ exec (.readByte h' seg' off') t = .next u ∧
        u.rsp = some ⟨.ok, r, []⟩ ∧ r.toNat = v.toNat % 0x100) ∧
    (lin seg off + 1 = lin seg' off' → lin seg off + 2 ≤ s.cfg.cap →
      ∃ t u r, exec (.writeWord h seg off v) s = .next t ∧ exec (.readByte h' seg' off') t = .next u ∧
        u.rsp = some ⟨.ok, r, []⟩ ∧ r.toNat = v.toNat / 0x100 % 0x100) ∧
    (∀ t, exec (.writeByte h seg off v) s = .next t →
      ∀ addr, addr ≠ lin seg off → t.mem.read addr = s.mem.read addr) ∧
    (∀ t, exec (.writeWord h seg off v) s = .next t →
      ∀ addr, addr ≠ lin seg off → addr ≠ lin seg off + 1 → t.mem.read addr = s.mem.read addr)

/-- 41_mmu_ops R160: a WRITE_BLOCK in range leaves the same store as its WRITE_BYTE commands in any order, through any
pairs and handles. -/
def Obligations.WriteBlockEqualsByteWritesInAnyOrder : Prop :=
  ∀ (s : State) (h : Nat) (seg off : Half) (data : List Byte) (writes : List (Nat × Half × Half × Word)),
    s.faultCode = 0 → s.busy = false → s.StoreSound → h < s.cfg.nHandles →
    lin seg off + data.length ≤ s.cfg.cap → (∀ x ∈ writes, x.1 < s.cfg.nHandles) →
    (writes.map fun x => (lin x.2.1 x.2.2.1, x.2.2.2.extractLsb' 0 8)).Perm
      (data.zipIdx.map fun x => (lin seg off + x.2, x.1)) →
    ∃ t, exec (.writeBlock h seg off data) s = .next t ∧
      (execAll (writes.map fun x => .writeByte x.1 x.2.1 x.2.2.1 x.2.2.2) s).mem = t.mem ∧
      (execAll (writes.map fun x => .writeByte x.1 x.2.1 x.2.2.1 x.2.2.2) s).faultCode = 0

/-- 41_mmu_ops R160: a READ_BLOCK of length n at L returns the bytes of the READ_BYTE commands at L + i; and reading
the whole store as a block is SNAPSHOT (41_mmu_ops R159). -/
def Obligations.ReadBlockEqualsByteReads : Prop :=
  (∀ (s t : State) (h h' i : Nat) (seg off seg' off' : Half) (a : Word) (r : Response),
    s.busy = false → h' < s.cfg.nHandles → exec (.readBlock h seg off a) s = .next t → t.rsp = some r →
    r.status = .ok → i < a.toNat → lin seg' off' = lin seg off + i →
    ∃ u b, exec (.readByte h' seg' off') s = .next u ∧ r.rdata[i]? = some b ∧
      u.rsp = some ⟨.ok, b.setWidth 32, []⟩) ∧
  (∀ (s : State) (h : Nat) (seg off : Half) (a : Word), lin seg off = 0 → a.toNat = s.cfg.cap →
    s.faultCode = 0 → h < s.cfg.nHandles → s.busy = false →
    exec (.readBlock h seg off a) s = exec (.snapshot h) s)

/-- 20_memory R67a: over any list of commands from a reset store, if none faulted, each byte of the store is the
value written by the latest command that covered it, through whatever handle and pair, or 0. -/
def Obligations.StoreHoldsTheLatestWrite : Prop :=
  ∀ (cmds : List Instr) (s : State), s.mem = [] → (execAll cmds s).faultCode = 0 →
    ∀ addr, (execAll cmds s).mem.read addr = latestWrite cmds.reverse addr

/-- 20_memory R67, 30_encoding R80: the machine run on the host's commands is the instructions executed in
order, one step each (the list of the host's moves is the model's own field, log entry 4). -/
def Obligations.RunExecutesTheCommandsInOrder : Prop :=
  ∀ (cmds : List Instr) (s : State), s.host = cmds.map (fun i => .command i.toCommand) →
    Host.Core.run core cmds.length s = .next (execAll cmds { s with host := [] })

/-- 20_memory R54: at most 4096 logical addresses name one linear address. -/
def Obligations.AtMost4096PairsAlias : Prop :=
  ∀ (l : Nat) (pairs : List (Half × Half)), pairs.Nodup → (∀ p ∈ pairs, lin p.1 p.2 = l) →
    pairs.length ≤ 4096

/-- 40_flags_ops R119: for a true sum AF is the carry out of bit 3, for a true difference (either role) the borrow. -/
def Obligations.SetAuxIsNibbleCarryOrBorrow : Prop :=
  ∀ (s : State) (b c : Word) (k : Nat), s.faultCode = 0 → k ≤ 1 →
    (∃ t, exec (.setAux (b + c + BitVec.ofNat 32 k) b c) s = .next t ∧
      t.flags.af = decide (16 ≤ b.toNat % 16 + c.toNat % 16 + k)) ∧
    (∃ t, exec (.setAux (b - c - BitVec.ofNat 32 k) b c) s = .next t ∧
      t.flags.af = decide (b.toNat % 16 < c.toNat % 16 + k)) ∧
    (∃ t, exec (.setAux (c - b - BitVec.ofNat 32 k) b c) s = .next t ∧
      t.flags.af = decide (c.toNat % 16 < b.toNat % 16 + k))

/-- 40_flags_ops R121: for a true sum of operands below `2^w`, masked or not, OF says that the sum of the signed
readings lies outside the signed range of the width. -/
def Obligations.SetOvfAddIsSignedOverflow : Prop :=
  ∀ (s : State) (a b c : Word) (k : Nat), s.faultCode = 0 → k ≤ 1 →
    (b.toNat < 2 ^ 8 → c.toNat < 2 ^ 8 → a.toNat % 2 ^ 8 = (b.toNat + c.toNat + k) % 2 ^ 8 →
      ∃ t, exec (.setOvfAdd .w8 a b c) s = .next t ∧
        (t.flags.of_ = true ↔
          ¬ (-128 ≤ (b.setWidth 8).toInt + (c.setWidth 8).toInt + k ∧
            (b.setWidth 8).toInt + (c.setWidth 8).toInt + k ≤ 127))) ∧
    (b.toNat < 2 ^ 16 → c.toNat < 2 ^ 16 → a.toNat % 2 ^ 16 = (b.toNat + c.toNat + k) % 2 ^ 16 →
      ∃ t, exec (.setOvfAdd .w16 a b c) s = .next t ∧
        (t.flags.of_ = true ↔
          ¬ (-32768 ≤ (b.setWidth 16).toInt + (c.setWidth 16).toInt + k ∧
            (b.setWidth 16).toInt + (c.setWidth 16).toInt + k ≤ 32767)))

/-- 40_flags_ops R123, 90_conflicts C3: with the minuend on operand2 and the subtrahend on operand1, OF is the signed
overflow of `operand2 - operand1`; with the roles the other way round it is not: -128 - 1 and 1 - (-128)
overflow, and the flag is 0. -/
def Obligations.SetOvfSubIsSignedOverflowOfOperand2MinusOperand1 : Prop :=
  (∀ (s : State) (b c : Word), s.faultCode = 0 →
    (∃ t, exec (.setOvfSub .w8 (c - b) b c) s = .next t ∧
      (t.flags.of_ = true ↔
        ¬ (-128 ≤ (c.setWidth 8).toInt - (b.setWidth 8).toInt ∧
          (c.setWidth 8).toInt - (b.setWidth 8).toInt ≤ 127))) ∧
    (∃ t, exec (.setOvfSub .w16 (c - b) b c) s = .next t ∧
      (t.flags.of_ = true ↔
        ¬ (-32768 ≤ (c.setWidth 16).toInt - (b.setWidth 16).toInt ∧
          (c.setWidth 16).toInt - (b.setWidth 16).toInt ≤ 32767)))) ∧
  (∀ s : State, s.faultCode = 0 →
    (∃ t, exec (.setOvfSub .w8 (0x80 - 0x01) 0x80 0x01) s = .next t ∧ t.flags.of_ = false) ∧
    (∃ t, exec (.setOvfSub .w8 (0x01 - 0x80) 0x01 0x80) s = .next t ∧ t.flags.of_ = false) ∧
    (∃ t, exec (.setOvfSub .w8 (0x01 - 0x80) 0x80 0x01) s = .next t ∧ t.flags.of_ = true))

/-- 40_flags_ops R126: CF is the carry of an exact sum and the borrow of a wrapping difference, and always 0 for a
result masked to the width. -/
def Obligations.SetCarryIsCarryOrBorrow : Prop :=
  ∀ (s : State) (w : Width) (x y k : Nat), s.faultCode = 0 →
    x < 2 ^ widthBits w → y < 2 ^ widthBits w → k ≤ 1 →
    (∃ t, exec (.setCarry w (BitVec.ofNat 32 (x + y + k))) s = .next t ∧
      (t.flags.cf = true ↔ 2 ^ widthBits w ≤ x + y + k)) ∧
    (∃ t, exec (.setCarry w (BitVec.ofNat 32 x - BitVec.ofNat 32 y - BitVec.ofNat 32 k)) s = .next t ∧
      (t.flags.cf = true ↔ x < y + k)) ∧
    (∃ t, exec (.setCarry w (BitVec.ofNat 32 x)) s = .next t ∧ t.flags.cf = false)

/-- 40_flags_ops R115: CORE's parity is the textbook one exactly when bits 7 to 1 hold an even number of ones, and a
host gets the textbook flag by passing the population count of the low byte. -/
def Obligations.SetParityAgainstTextbook : Prop :=
  ∀ (s : State) (a : Word), s.faultCode = 0 →
    (∃ t, exec (.setParity a) s = .next t ∧
      ((t.flags.pf = true ↔ ((List.range 8).filter fun k => a.getLsbD k).length % 2 = 0) ↔
        ((List.range 7).filter fun k => a.getLsbD (k + 1)).length % 2 = 0)) ∧
    (∃ t, exec (.setParity (BitVec.ofNat 32 ((List.range 8).filter fun k => a.getLsbD k).length)) s = .next t ∧
      (t.flags.pf = true ↔ ((List.range 8).filter fun k => a.getLsbD k).length % 2 = 0))

/-- 70_reset_and_hazards R225: the recipes that force a computed flag, from every state that is not halted. -/
def Obligations.ForcingRecipes : Prop :=
  ∀ s : State, s.faultCode = 0 → ∀ v : Bool,
    (∃ t, exec (.setCarry .w8 (if v then 0x100 else 0)) s = .next t ∧ t.flags.cf = v) ∧
    (∃ t, exec (.setParity (if v then 0 else 1)) s = .next t ∧ t.flags.pf = v) ∧
    (∃ t, exec (.setAux (if v then 0x10 else 0) 0 0) s = .next t ∧ t.flags.af = v) ∧
    (∃ t, exec (.setZero .w8 (if v then 0 else 1)) s = .next t ∧ t.flags.zf = v) ∧
    (∃ t, exec (.setSign .w8 (if v then 0x80 else 0)) s = .next t ∧ t.flags.sf = v) ∧
    (∃ t, exec (.setOvfAdd .w8 (if v then 0x80 else 0) 0 0) s = .next t ∧ t.flags.of_ = v)

/-- 70_reset_and_hazards R226: a flags word saved with SERIALIZE, written to the store and read back through any aliasing pair
and handle restores the exact register, whatever FLAGS holds in between. -/
def Obligations.FlagsWordThroughTheStoreRestores : Prop :=
  ∀ (s : State) (g : Flags) (h h' : Nat) (seg off seg' off' : Half),
    s.faultCode = 0 → s.busy = false → s.flags.ReservedClear → g.ReservedClear → s.mem.wf →
    h < s.cfg.nHandles → h' < s.cfg.nHandles → lin seg off + 2 ≤ s.cfg.cap → lin seg off = lin seg' off' →
    ∃ t r u v w x, exec .serialize s = .next t ∧ t.rsp = some ⟨.ok, r, []⟩ ∧
      exec (.writeWord h seg off r) t = .next u ∧
      exec (.readWord h' seg' off') { u with flags := g } = .next v ∧ v.rsp = some ⟨.ok, w, []⟩ ∧
      exec (.deserialize w) v = .next x ∧ x.flags = s.flags

/-! ## Invariants -/

/-- The state after reset meets the invariant of the machine. -/
def Obligations.ResetMeetsTheInvariant : Prop := State.reset.Inv

/-- Every step keeps the invariant of the machine, from every state that meets it: the store in canonical form and
inside `CAP`, the reserved fields 0 (10_state R24), `BUSY = 0` between commands (R33), the latch one of the
records R34, R35 and R181 allow, the response without data unless OK (30_encoding R91) and never
REENTRANT_ACCESS (60_exceptions R185). -/
def Obligations.StepKeepsTheInvariant : Prop :=
  ∀ s t : State, s.Inv → step s = .next t → t.Inv

/-- The invariant without its premise on the parameters holds along every run from reset, for any admissible `CAP`
and `N_HANDLES` and any moves of the host; so no run meets `ReentrantAccess` (60_exceptions R185). -/
def Obligations.NoRunMeetsReentrantAccess : Prop :=
  ∀ (n : Nat) (cfg : Config) (moves : List HostMove), cfg.Admissible →
    ∃ t, Host.Core.run core n { State.reset with cfg := cfg, host := moves } = .next t ∧
      t.Inv ∧ t.faultCode ≠ 3 ∧ ∀ r, t.rsp = some r → r.status ≠ .reentrantAccess
end

