-- ==== Sys2Proof/Laws/Decode.lean ====
section
/-! SUPPORT. The decoder and the encoder field by field: the operation code, the command record, the image. -/

namespace Sys2Proof

/-- The `S` bit of an operation code: the sub-operand bit, or 1 for the word forms (30_encoding R86). -/
def Opcode.bitOf (o : Opcode) (s : Bool) : Bool := s || o = .readWord || o = .writeWord

/-- The commands whose `S` bit is an operand (30_encoding R86a, R86c). -/
def Opcode.takesBit (o : Opcode) : Bool :=
  o ∈ [Opcode.setSign, .setZero, .setOvfAdd, .setOvfSub, .setCarry, .wrTf, .wrIf, .wrDf]

/-- A mnemonic's code with its `S` bit decodes to that mnemonic and that bit. -/
theorem decodeOp_code (o : Opcode) (s : Bool) (h : s = true → o.takesBit = true) :
    decodeOp (o.code ||| (BitVec.ofBool s).setWidth 8) = .ok (o, o.bitOf s) := by
  cases s <;> cases o <;> first | decide | simp [Opcode.takesBit] at h

theorem subBit_takesBit (i : Instr) : i.subBit = true → i.opcode.takesBit = true := by
  cases i <;> simp [Instr.subBit, Instr.opcode, Opcode.takesBit]

/-- The operation code of an instruction decodes to its mnemonic and its `S` bit. -/
theorem decodeOp_op (i : Instr) : decodeOp i.op = .ok (i.opcode, i.opcode.bitOf i.subBit) :=
  decodeOp_code i.opcode i.subBit (subBit_takesBit i)

theorem toCommand_op (i : Instr) : i.toCommand.op = i.op := by cases i <;> rfl

/-- The record of an instruction decodes to the instruction, with any handle. -/
theorem decodeCommand_toCommand (i : Instr) : decodeCommand i.toCommand = .ok i := by
  rw [decodeCommand, toCommand_op, decodeOp_op]
  cases i with
  | setSign w | setZero w | setOvfAdd w | setOvfSub w | setCarry w => cases w <;> rfl
  | wrTf v | wrIf v | wrDf v => cases v <;> rfl
  | _ => rfl

set_option maxRecDepth 8000 in
/-- What a record decodes to has the record's operation code: `FAULT_OP` is `cmd.op`
(60_exceptions R189). -/
theorem op_of_decodeCommand {c : Command} {i : Instr} (h : decodeCommand c = .ok i) : i.op = c.op := by
  have key : ∀ n : Fin 256, (match decodeOp (BitVec.ofFin n) with
      | .ok (o, s) => decide ((assemble o s (bareCommand 0)).op = BitVec.ofFin n)
      | .error _ => true) = true := by decide
  unfold decodeCommand at h
  split at h
  · rename_i o s ho
    cases h
    have k := key c.op.toFin
    simp only [BitVec.ofFin_toFin, ho, decide_eq_true_eq] at k
    rw [← k]
    cases o <;> rfl
  · cases h

theorem append_bytesOfHalf (v : Half) : v.extractLsb' 8 8 ++ v.extractLsb' 0 8 = v := by
  ext k hk
  simp only [BitVec.getElem_append, BitVec.getElem_extractLsb']
  split <;> simp_all [BitVec.getLsbD_eq_getElem]

theorem append_bytesOfWord (v : Word) :
    v.extractLsb' 24 8 ++ v.extractLsb' 16 8 ++ v.extractLsb' 8 8 ++ v.extractLsb' 0 8 = v := by
  apply BitVec.eq_of_getLsbD_eq
  intro k hk
  simp only [BitVec.getLsbD_append, BitVec.getLsbD_extractLsb']
  have : k < 8 ∨ 8 ≤ k ∧ k < 16 ∨ 16 ≤ k ∧ k < 24 ∨ 24 ≤ k ∧ k < 32 := by omega
  rcases this with h | h | h | h
  · simp [h]
  · simp [show ¬ k < 8 by omega, show k - 8 < 8 by omega, show 8 + (k - 8) = k by omega]
  · simp [show ¬ k < 8 by omega, show ¬ k - 8 < 8 by omega, show k - 8 - 8 < 8 by omega,
      show 16 + (k - 8 - 8) = k by omega]
  · simp [show ¬ k < 8 by omega, show ¬ k - 8 < 8 by omega, show ¬ k - 8 - 8 < 8 by omega,
      show k - 8 - 8 - 8 < 8 by omega, show 24 + (k - 8 - 8 - 8) = k by omega]

/-- The image of a record reads back as the record when `h8` holds its handle (30_encoding R99). -/
theorem commandOfImage_imageOfCommand (c : Command) (h : c.h < 256) :
    commandOfImage (imageOfCommand c) = some c := by
  cases c
  simp only [imageOfCommand, bytesOfHalf, bytesOfWord, List.cons_append, List.nil_append, commandOfImage,
    append_bytesOfHalf, append_bytesOfWord, BitVec.toNat_ofNat, Option.some.injEq, Command.mk.injEq, and_self, and_true,
    true_and]
  exact Nat.mod_eq_of_lt h

/-- The handle a record of an instruction carries. -/
theorem toCommand_h (i : Instr) : i.toCommand.h = i.handle.getD 0 := by cases i <;> rfl

end Sys2Proof
end

