-- ==== Sys2Proof/Laws/Memory.lean ====
section
/-!
SUPPORT. The laws of the store: what a read gives after a write, that every operation keeps the canonical form
and the capacity, that equal contents in canonical form are equal lists, and the block operations byte by byte.
-/

namespace Sys2Proof.Machine

@[simp] theorem Memory.read_nil (addr : Nat) : Memory.read [] addr = 0#8 := rfl

theorem Memory.read_cons (x : Nat) (b : Byte) (m : Memory) (addr : Nat) :
    Memory.read ((x, b) :: m) addr = if x = addr then b else Memory.read m addr := rfl

/-- An address that is not listed reads `0x00`. -/
theorem Memory.read_of_not_listed {m : Memory} {addr : Nat} (h : ∀ cell ∈ m, cell.1 ≠ addr) :
    m.read addr = 0#8 := by
  induction m with
  | nil => rfl
  | cons cell m ih =>
    obtain ⟨x, b⟩ := cell
    rw [Memory.read_cons, if_neg (h (x, b) (by simp)), ih fun c hc => h c (by simp [hc])]

/-- A write leaves every other address as it was, in any list. -/
theorem Memory.read_write_other {m : Memory} {a b : Nat} (v : Byte) (h : b ≠ a) :
    (m.write a v).read b = m.read b := by
  induction m with
  | nil => by_cases hv : v = 0#8 <;> simp [Memory.write, Memory.read_cons, hv, Ne.symm h]
  | cons cell m ih =>
    obtain ⟨x, w⟩ := cell
    simp only [Memory.write]
    split
    · split <;> simp [Memory.read_cons, Ne.symm h]
    · split
      · rename_i hx
        split <;> simp [Memory.read_cons, ← hx, Ne.symm h]
      · simp only [Memory.read_cons, ih]

/-- A write is read back, in canonical form. -/
theorem Memory.read_write_same {m : Memory} (hm : m.wf) (a : Nat) (v : Byte) :
    (m.write a v).read a = v := by
  induction m with
  | nil => by_cases hv : v = 0#8 <;> simp [Memory.write, Memory.read_cons, hv]
  | cons cell m ih =>
    obtain ⟨x, w⟩ := cell
    obtain ⟨hs, hn⟩ := hm
    rw [List.pairwise_cons] at hs
    have above : ∀ cell ∈ m, x < cell.1 := fun c hc => hs.1 c hc
    simp only [Memory.write]
    split
    · rename_i hax
      by_cases hv : v = 0#8
      · rw [if_pos hv, hv]
        refine Memory.read_of_not_listed fun c hc => ?_
        rcases List.mem_cons.mp hc with rfl | hc
        · exact (Nat.ne_of_lt hax).symm
        · have := above c hc; omega
      · simp [hv, Memory.read_cons]
    · split
      · rename_i hx
        by_cases hv : v = 0#8
        · rw [if_pos hv, hv]
          exact Memory.read_of_not_listed fun c hc => by have := above c hc; omega
        · simp [hv, Memory.read_cons]
      · rename_i hx
        rw [Memory.read_cons, if_neg (Ne.symm hx)]
        exact ih ⟨hs.2, fun c hc => hn c (by simp [hc])⟩

/-- What every address reads after a write. -/
theorem Memory.read_write {m : Memory} (hm : m.wf) (a b : Nat) (v : Byte) :
    (m.write a v).read b = if b = a then v else m.read b := by
  by_cases h : b = a
  · rw [if_pos h, h, Memory.read_write_same hm]
  · rw [if_neg h, Memory.read_write_other v h]

/-- A write lists no address but the old ones and its own. -/
theorem Memory.mem_write {m : Memory} {a : Nat} {v : Byte} {cell : Host.Cell} (h : cell ∈ m.write a v) :
    cell = (a, v) ∧ v ≠ 0#8 ∨ cell ∈ m := by
  induction m with
  | nil =>
    by_cases hv : v = 0#8 <;> simp_all [Memory.write]
  | cons c m ih =>
    obtain ⟨x, w⟩ := c
    simp only [Memory.write] at h
    split at h
    · split at h
      · exact .inr h
      · rcases List.mem_cons.mp h with h | h
        · exact .inl ⟨h, ‹_›⟩
        · exact .inr h
    · split at h
      · split at h
        · exact .inr (by simp [h])
        · rcases List.mem_cons.mp h with h | h
          · exact .inl ⟨h, ‹_›⟩
          · exact .inr (by simp [h])
      · rcases List.mem_cons.mp h with h | h
        · exact .inr (by simp [h])
        · rcases ih h with h | h
          · exact .inl h
          · exact .inr (by simp [h])

/-- A write keeps the canonical form. -/
theorem Memory.wf_write {m : Memory} (hm : m.wf) (a : Nat) (v : Byte) : (m.write a v).wf := by
  refine ⟨?_, fun c hc => ?_⟩
  · induction m with
    | nil => by_cases hv : v = 0#8 <;> simp [Memory.write, hv]
    | cons cell m ih =>
      obtain ⟨x, w⟩ := cell
      obtain ⟨hs, hn⟩ := hm
      have hs' := List.pairwise_cons.mp hs
      have hm' : Memory.wf m := ⟨hs'.2, fun c hc => hn c (by simp [hc])⟩
      simp only [Memory.write]
      split
      · split
        · exact hs
        · refine List.pairwise_cons.mpr ⟨fun c hc => ?_, hs⟩
          rcases List.mem_cons.mp hc with rfl | hc
          · assumption
          · exact Nat.lt_trans ‹_› (hs'.1 c hc)
      · split
        · rename_i hx
          split
          · exact hs'.2
          · exact List.pairwise_cons.mpr ⟨fun c hc => hx ▸ hs'.1 c hc, hs'.2⟩
        · refine List.pairwise_cons.mpr ⟨fun c hc => ?_, ih hm'⟩
          rcases Memory.mem_write hc with ⟨rfl, -⟩ | hc
          · show x < a; omega
          · exact hs'.1 c hc
  · rcases Memory.mem_write hc with ⟨rfl, hv⟩ | hc
    · exact hv
    · exact hm.2 c hc

/-- A write below the capacity keeps the list below it. -/
theorem Memory.within_write {m : Memory} {cap a : Nat} (hm : m.within cap) (ha : a < cap) (v : Byte) :
    (m.write a v).within cap := by
  intro c hc
  rcases Memory.mem_write hc with ⟨rfl, -⟩ | hc
  · exact ha
  · exact hm c hc

/-- In canonical form, what an address reads decides whether it is listed. -/
theorem Memory.listed_iff {m : Memory} (hm : m.wf) (a : Nat) (b : Byte) :
    (a, b) ∈ m ↔ m.read a = b ∧ b ≠ 0#8 := by
  induction m with
  | nil => simpa using fun h => h.symm
  | cons cell m ih =>
    obtain ⟨x, w⟩ := cell
    obtain ⟨hs, hn⟩ := hm
    have hs' := List.pairwise_cons.mp hs
    have ih := ih ⟨hs'.2, fun c hc => hn c (by simp [hc])⟩
    have hw : w ≠ 0#8 := hn (x, w) (by simp)
    rw [List.mem_cons, Memory.read_cons]
    by_cases hx : x = a
    · subst hx
      have : (x, b) ∉ m := fun hc => Nat.lt_irrefl x (hs'.1 (x, b) hc)
      simp only [this, or_false, if_true, Prod.mk.injEq, true_and]
      constructor
      · rintro rfl; exact ⟨rfl, hw⟩
      · rintro ⟨rfl, -⟩; rfl
    · rw [if_neg hx, ih]
      simp [Ne.symm hx]

/-- Two stores in canonical form that read the same everywhere are the same list. -/
theorem Memory.eq_of_read_eq {m m' : Memory} (hm : m.wf) (hm' : m'.wf)
    (h : ∀ addr, m.read addr = m'.read addr) : m = m' := by
  have key : ∀ c : Host.Cell, c ∈ m ↔ c ∈ m' := fun ⟨a, b⟩ => by
    rw [Memory.listed_iff hm, Memory.listed_iff hm', h a]
  have nd := hm.1.imp (S := (· ≠ ·)) fun hlt he => Nat.lt_irrefl _ (he ▸ hlt)
  have nd' := hm'.1.imp (S := (· ≠ ·)) fun hlt he => Nat.lt_irrefl _ (he ▸ hlt)
  have perm : m.Perm m' := (List.perm_ext_iff_of_nodup nd nd').mpr key
  exact perm.eq_of_pairwise (fun a b _ _ h1 h2 => absurd h1 (Nat.lt_asymm h2)) hm.1 hm'.1

/-! ## Blocks -/

@[simp] theorem Memory.length_readBlock (m : Memory) (addr len : Nat) :
    (m.readBlock addr len).length = len := by
  induction len generalizing addr with
  | zero => rfl
  | succ len ih => simp [Memory.readBlock, ih]

/-- Byte `i` of a block is the byte at the linear address `addr + i` (20_memory R58). -/
theorem Memory.getElem?_readBlock {m : Memory} {addr len i : Nat} (h : i < len) :
    (m.readBlock addr len)[i]? = some (m.read (addr + i)) := by
  induction len generalizing addr i with
  | zero => omega
  | succ len ih =>
    cases i with
    | zero => rfl
    | succ i =>
      rw [Memory.readBlock, List.getElem?_cons_succ, ih (by omega)]
      congr 2; omega

/-- A block write keeps the canonical form. -/
theorem Memory.wf_writeBlock {m : Memory} (hm : m.wf) (addr : Nat) (data : List Byte) :
    (m.writeBlock addr data).wf := by
  induction data generalizing m addr with
  | nil => exact hm
  | cons b data ih => exact ih (Memory.wf_write hm addr b) (addr + 1)

/-- A block write below the capacity keeps the list below it. -/
theorem Memory.within_writeBlock {m : Memory} {cap addr : Nat} {data : List Byte} (hm : m.within cap)
    (h : addr + data.length ≤ cap) : (m.writeBlock addr data).within cap := by
  induction data generalizing m addr with
  | nil => exact hm
  | cons b data ih =>
    simp only [List.length_cons] at h
    exact ih (Memory.within_write hm (by omega) b) (by omega)

/-- A block write leaves every address outside the block as it was, in any list. -/
theorem Memory.read_writeBlock_outside {m : Memory} {addr a : Nat} {data : List Byte}
    (h : a < addr ∨ addr + data.length ≤ a) : (m.writeBlock addr data).read a = m.read a := by
  induction data generalizing m addr with
  | nil => rfl
  | cons b data ih =>
    simp only [List.length_cons] at h
    rw [Memory.writeBlock, ih (by omega), Memory.read_write_other b (by omega)]

/-- What every address reads after a block write: byte `a - addr` of the data inside the block. -/
theorem Memory.read_writeBlock {m : Memory} (hm : m.wf) (addr a : Nat) (data : List Byte) :
    (m.writeBlock addr data).read a =
      ((if addr ≤ a then data[a - addr]? else none).getD (m.read a)) := by
  induction data generalizing m addr with
  | nil => by_cases h : addr ≤ a <;> simp [Memory.writeBlock, h]
  | cons b data ih =>
    rw [Memory.writeBlock, ih (Memory.wf_write hm addr b), Memory.read_write hm]
    rcases Nat.lt_trichotomy a addr with h | h | h
    · simp [Nat.not_le.mpr h, Nat.ne_of_lt h, show ¬ addr + 1 ≤ a by omega]
    · subst h; simp
    · obtain ⟨k, hk⟩ : ∃ k, a = addr + 1 + k := ⟨a - (addr + 1), by omega⟩
      subst hk
      simp [show addr + 1 + k ≠ addr by omega, show addr ≤ addr + 1 + k by omega,
        show addr + 1 + k - addr = k + 1 by omega]

end Sys2Proof.Machine
end

