-- ==== Sys2Proof/Laws/State.lean ====
section
/-! SUPPORT. One lemma per field per named update of the state, so that no proof unfolds a record update. -/

namespace Sys2Proof.Machine

/-! ## `State.complete` -/

@[simp] theorem State.complete_flags (s : State) (r : Word) (rdata : List Byte) :
    (s.complete r rdata).flags = s.flags := rfl
@[simp] theorem State.complete_mem (s : State) (r : Word) (rdata : List Byte) :
    (s.complete r rdata).mem = s.mem := rfl
@[simp] theorem State.complete_busy (s : State) (r : Word) (rdata : List Byte) :
    (s.complete r rdata).busy = s.busy := rfl
@[simp] theorem State.complete_faultCode (s : State) (r : Word) (rdata : List Byte) :
    (s.complete r rdata).faultCode = s.faultCode := rfl
@[simp] theorem State.complete_faultOp (s : State) (r : Word) (rdata : List Byte) :
    (s.complete r rdata).faultOp = s.faultOp := rfl
@[simp] theorem State.complete_faultAddr (s : State) (r : Word) (rdata : List Byte) :
    (s.complete r rdata).faultAddr = s.faultAddr := rfl
@[simp] theorem State.complete_rsp (s : State) (r : Word) (rdata : List Byte) :
    (s.complete r rdata).rsp = some ⟨.ok, r, rdata⟩ := rfl
@[simp] theorem State.complete_host (s : State) (r : Word) (rdata : List Byte) :
    (s.complete r rdata).host = s.host := rfl
@[simp] theorem State.complete_cfg (s : State) (r : Word) (rdata : List Byte) :
    (s.complete r rdata).cfg = s.cfg := rfl

/-! ## `State.done` -/

@[simp] theorem State.done_flags (s : State) :
    s.done.flags = s.flags := rfl
@[simp] theorem State.done_mem (s : State) :
    s.done.mem = s.mem := rfl
@[simp] theorem State.done_busy (s : State) :
    s.done.busy = s.busy := rfl
@[simp] theorem State.done_faultCode (s : State) :
    s.done.faultCode = s.faultCode := rfl
@[simp] theorem State.done_faultOp (s : State) :
    s.done.faultOp = s.faultOp := rfl
@[simp] theorem State.done_faultAddr (s : State) :
    s.done.faultAddr = s.faultAddr := rfl
@[simp] theorem State.done_rsp (s : State) :
    s.done.rsp = some ⟨.ok, 0, []⟩ := rfl
@[simp] theorem State.done_host (s : State) :
    s.done.host = s.host := rfl
@[simp] theorem State.done_cfg (s : State) :
    s.done.cfg = s.cfg := rfl

/-! ## `State.refuse` -/

@[simp] theorem State.refuse_flags (s : State) :
    s.refuse.flags = s.flags := rfl
@[simp] theorem State.refuse_mem (s : State) :
    s.refuse.mem = s.mem := rfl
@[simp] theorem State.refuse_busy (s : State) :
    s.refuse.busy = s.busy := rfl
@[simp] theorem State.refuse_faultCode (s : State) :
    s.refuse.faultCode = s.faultCode := rfl
@[simp] theorem State.refuse_faultOp (s : State) :
    s.refuse.faultOp = s.faultOp := rfl
@[simp] theorem State.refuse_faultAddr (s : State) :
    s.refuse.faultAddr = s.faultAddr := rfl
@[simp] theorem State.refuse_rsp (s : State) :
    s.refuse.rsp = some ⟨.halted, 0, []⟩ := rfl
@[simp] theorem State.refuse_host (s : State) :
    s.refuse.host = s.host := rfl
@[simp] theorem State.refuse_cfg (s : State) :
    s.refuse.cfg = s.cfg := rfl

/-! ## `State.raise` -/

@[simp] theorem State.raise_flags (s : State) (f : Fault) (op : Byte) (info : Nat) :
    (s.raise f op info).flags = s.flags := rfl
@[simp] theorem State.raise_mem (s : State) (f : Fault) (op : Byte) (info : Nat) :
    (s.raise f op info).mem = s.mem := rfl
@[simp] theorem State.raise_busy (s : State) (f : Fault) (op : Byte) (info : Nat) :
    (s.raise f op info).busy = s.busy := rfl
@[simp] theorem State.raise_faultCode (s : State) (f : Fault) (op : Byte) (info : Nat) :
    (s.raise f op info).faultCode = f.code := rfl
@[simp] theorem State.raise_faultOp (s : State) (f : Fault) (op : Byte) (info : Nat) :
    (s.raise f op info).faultOp = op := rfl
@[simp] theorem State.raise_faultAddr (s : State) (f : Fault) (op : Byte) (info : Nat) :
    (s.raise f op info).faultAddr = info := rfl
@[simp] theorem State.raise_rsp (s : State) (f : Fault) (op : Byte) (info : Nat) :
    (s.raise f op info).rsp = some ⟨f.status, 0, []⟩ := rfl
@[simp] theorem State.raise_host (s : State) (f : Fault) (op : Byte) (info : Nat) :
    (s.raise f op info).host = s.host := rfl
@[simp] theorem State.raise_cfg (s : State) (f : Fault) (op : Byte) (info : Nat) :
    (s.raise f op info).cfg = s.cfg := rfl

/-! ## `State.acquire` -/

@[simp] theorem State.acquire_flags (s : State) :
    s.acquire.flags = s.flags := rfl
@[simp] theorem State.acquire_mem (s : State) :
    s.acquire.mem = s.mem := rfl
@[simp] theorem State.acquire_busy (s : State) :
    s.acquire.busy = true := rfl
@[simp] theorem State.acquire_faultCode (s : State) :
    s.acquire.faultCode = s.faultCode := rfl
@[simp] theorem State.acquire_faultOp (s : State) :
    s.acquire.faultOp = s.faultOp := rfl
@[simp] theorem State.acquire_faultAddr (s : State) :
    s.acquire.faultAddr = s.faultAddr := rfl
@[simp] theorem State.acquire_rsp (s : State) :
    s.acquire.rsp = s.rsp := rfl
@[simp] theorem State.acquire_host (s : State) :
    s.acquire.host = s.host := rfl
@[simp] theorem State.acquire_cfg (s : State) :
    s.acquire.cfg = s.cfg := rfl

/-! ## `State.release` -/

@[simp] theorem State.release_flags (s : State) :
    s.release.flags = s.flags := rfl
@[simp] theorem State.release_mem (s : State) :
    s.release.mem = s.mem := rfl
@[simp] theorem State.release_busy (s : State) :
    s.release.busy = false := rfl
@[simp] theorem State.release_faultCode (s : State) :
    s.release.faultCode = s.faultCode := rfl
@[simp] theorem State.release_faultOp (s : State) :
    s.release.faultOp = s.faultOp := rfl
@[simp] theorem State.release_faultAddr (s : State) :
    s.release.faultAddr = s.faultAddr := rfl
@[simp] theorem State.release_rsp (s : State) :
    s.release.rsp = s.rsp := rfl
@[simp] theorem State.release_host (s : State) :
    s.release.host = s.host := rfl
@[simp] theorem State.release_cfg (s : State) :
    s.release.cfg = s.cfg := rfl

/-! ## `applyReset` -/

@[simp] theorem applyReset_flags (s : State) :
    (applyReset s).flags = Flags.reset := rfl
@[simp] theorem applyReset_mem (s : State) :
    (applyReset s).mem = [] := rfl
@[simp] theorem applyReset_busy (s : State) :
    (applyReset s).busy = false := rfl
@[simp] theorem applyReset_faultCode (s : State) :
    (applyReset s).faultCode = 0 := rfl
@[simp] theorem applyReset_faultOp (s : State) :
    (applyReset s).faultOp = 0 := rfl
@[simp] theorem applyReset_faultAddr (s : State) :
    (applyReset s).faultAddr = 0 := rfl
@[simp] theorem applyReset_rsp (s : State) :
    (applyReset s).rsp = none := rfl
@[simp] theorem applyReset_host (s : State) :
    (applyReset s).host = s.host := rfl
@[simp] theorem applyReset_cfg (s : State) :
    (applyReset s).cfg = s.cfg := rfl

end Sys2Proof.Machine
end

