-- ==== Sys2Proof/Laws/Ops.lean ====
section
/-!
SUPPORT. What each shared operation can do, said once: the halt check, a write of FLAGS, the handle check and
the store access, each with the case it answers in and the inversion "if it answers t, then …".
-/

namespace Sys2Proof.Machine

theorem State.halted_iff (s : State) : s.halted = true ↔ s.faultCode ≠ 0 := by
  simp [State.halted]

theorem unlessHalted_running {s : State} (act : State → State) (h : s.faultCode = 0) :
    unlessHalted s act = .next (act s) := by
  simp [unlessHalted, State.halted, h]

theorem unlessHalted_halted {s : State} (act : State → State) (h : s.faultCode ≠ 0) :
    unlessHalted s act = .next s.refuse := by
  rw [unlessHalted, if_pos ((State.halted_iff s).mpr h)]

/-- Every command is refused when CORE is halted, and otherwise does what it does. -/
theorem unlessHalted_next {s t : State} {act : State → State} (h : unlessHalted s act = .next t) :
    s.faultCode ≠ 0 ∧ t = s.refuse ∨ s.faultCode = 0 ∧ t = act s := by
  by_cases hs : s.faultCode = 0
  · rw [unlessHalted_running act hs] at h
    cases h
    exact .inr ⟨hs, rfl⟩
  · rw [unlessHalted_halted act hs] at h
    cases h
    exact .inl ⟨hs, rfl⟩

theorem writeFlags_running {s : State} (act : Flags → Flags) (h : s.faultCode = 0) :
    writeFlags s act = .next { s with flags := act s.flags, rsp := some ⟨.ok, 0, []⟩ } :=
  unlessHalted_running _ h

/-- A FLAGS command is refused, or writes the register and answers OK. -/
theorem writeFlags_next {s t : State} {act : Flags → Flags} (h : writeFlags s act = .next t) :
    s.faultCode ≠ 0 ∧ t = s.refuse ∨
    s.faultCode = 0 ∧ t = { s with flags := act s.flags, rsp := some ⟨.ok, 0, []⟩ } :=
  unlessHalted_next h

theorem withHandle_valid {s : State} {h : Nat} (op : Byte) (act : State → State) (hs : s.faultCode = 0)
    (hh : h < s.cfg.nHandles) : withHandle s op h act = .next (act s) := by
  rw [withHandle, unlessHalted_running _ hs, if_pos hh]

theorem withHandle_invalid {s : State} {h : Nat} (op : Byte) (act : State → State) (hs : s.faultCode = 0)
    (hh : s.cfg.nHandles ≤ h) : withHandle s op h act = .next (s.raise .illegalCommand op 0) := by
  rw [withHandle, unlessHalted_running _ hs, if_neg (by omega)]

/-- An MMU command is refused, raises `IllegalCommand`, or goes on. -/
theorem withHandle_next {s t : State} {op : Byte} {h : Nat} {act : State → State}
    (ht : withHandle s op h act = .next t) :
    s.faultCode ≠ 0 ∧ t = s.refuse ∨
    s.faultCode = 0 ∧ s.cfg.nHandles ≤ h ∧ t = s.raise .illegalCommand op 0 ∨
    s.faultCode = 0 ∧ h < s.cfg.nHandles ∧ t = act s := by
  rcases unlessHalted_next ht with ⟨hs, rfl⟩ | ⟨hs, rfl⟩
  · exact .inl ⟨hs, rfl⟩
  · by_cases hh : h < s.cfg.nHandles
    · exact .inr (.inr ⟨hs, hh, if_pos hh⟩)
    · exact .inr (.inl ⟨hs, by omega, if_neg hh⟩)

theorem accessStore_busy {s : State} (op : Byte) (base n : Nat) (act : State → State) (hb : s.busy = true) :
    accessStore s op base n act = s.raise .reentrantAccess op base := by
  simp [accessStore, hb]

/-- A `BoundsFault` leaves `BUSY` as it was when the command began (60_exceptions R189). -/
theorem accessStore_outOfRange {s : State} {base n : Nat} (op : Byte) (act : State → State)
    (hb : s.busy = false) (hr : s.cfg.cap < base + n) :
    accessStore s op base n act = s.raise .boundsFault op base := by
  have : ¬ base + n ≤ s.cfg.cap := by omega
  simp [accessStore, hb, this, State.raise, State.release, State.acquire]

theorem accessStore_inRange {s : State} {base n : Nat} (op : Byte) (act : State → State)
    (hb : s.busy = false) (hr : base + n ≤ s.cfg.cap) :
    accessStore s op base n act = (act s.acquire).release := by
  simp [accessStore, hb, hr]

theorem storeCommand_inRange {s : State} {h base n : Nat} (op : Byte) (act : State → State)
    (hs : s.faultCode = 0) (hh : h < s.cfg.nHandles) (hb : s.busy = false) (hr : base + n ≤ s.cfg.cap) :
    storeCommand s op h base n act = .next (act s.acquire).release := by
  rw [storeCommand, withHandle_valid op _ hs hh, accessStore_inRange op act hb hr]

theorem storeCommand_outOfRange {s : State} {h base n : Nat} (op : Byte) (act : State → State)
    (hs : s.faultCode = 0) (hh : h < s.cfg.nHandles) (hb : s.busy = false) (hr : s.cfg.cap < base + n) :
    storeCommand s op h base n act = .next (s.raise .boundsFault op base) := by
  rw [storeCommand, withHandle_valid op _ hs hh, accessStore_outOfRange op act hb hr]

theorem storeCommand_busy {s : State} {h : Nat} (op : Byte) (base n : Nat) (act : State → State)
    (hs : s.faultCode = 0) (hh : h < s.cfg.nHandles) (hb : s.busy = true) :
    storeCommand s op h base n act = .next (s.raise .reentrantAccess op base) := by
  rw [storeCommand, withHandle_valid op _ hs hh, accessStore_busy op base n act hb]

/-- The five outcomes of a store-accessing command, in the order of 60_exceptions R192. -/
theorem storeCommand_next {s t : State} {op : Byte} {h base n : Nat} {act : State → State}
    (ht : storeCommand s op h base n act = .next t) :
    s.faultCode ≠ 0 ∧ t = s.refuse ∨
    s.faultCode = 0 ∧ s.cfg.nHandles ≤ h ∧ t = s.raise .illegalCommand op 0 ∨
    s.faultCode = 0 ∧ h < s.cfg.nHandles ∧ s.busy = true ∧ t = s.raise .reentrantAccess op base ∨
    s.faultCode = 0 ∧ h < s.cfg.nHandles ∧ s.busy = false ∧ s.cfg.cap < base + n ∧
      t = s.raise .boundsFault op base ∨
    s.faultCode = 0 ∧ h < s.cfg.nHandles ∧ s.busy = false ∧ base + n ≤ s.cfg.cap ∧
      t = (act s.acquire).release := by
  rcases withHandle_next ht with h0 | h0 | ⟨hs, hh, rfl⟩
  · exact .inl h0
  · exact .inr (.inl h0)
  · cases hb : s.busy with
    | true => exact .inr (.inr (.inl ⟨hs, hh, rfl, accessStore_busy op base n act hb⟩))
    | false =>
      by_cases hr : base + n ≤ s.cfg.cap
      · exact .inr (.inr (.inr (.inr ⟨hs, hh, rfl, hr, accessStore_inRange op act hb hr⟩)))
      · exact .inr (.inr (.inr (.inl
          ⟨hs, hh, rfl, by omega, accessStore_outOfRange op act hb (by omega)⟩)))

/-- A command with a reserved `op` is refused or raises `IllegalCommand`. -/
theorem execReserved_next {s t : State} {op : Byte} (h : execReserved op s = .next t) :
    s.faultCode ≠ 0 ∧ t = s.refuse ∨ s.faultCode = 0 ∧ t = s.raise .illegalCommand op 0 :=
  unlessHalted_next h

end Sys2Proof.Machine
end

