-- ==== Sys2Proof/Laws/Exec.lean ====
section
/-!
SUPPORT. One equation for all twenty commands: a command is refused, or raises one fault, or completes. Proofs
about `exec` cite `exec_eq` and the lemmas about `raises` and `completed`, and unfold no meaning.
-/

namespace Sys2Proof.Machine

/-- The fault a command raises when CORE is not halted, with the address it records: steps 2 to 5 of
41_mmu_ops R150. -/
def raises (i : Instr) (s : State) : Option (Fault × Nat) :=
  match i.handle with
  | none => none
  | some h =>
    if s.cfg.nHandles ≤ h then some (.illegalCommand, 0)
    else match storeAccess s.cfg.cap i with
      | none => none
      | some (base, n) =>
        if s.busy = true then some (.reentrantAccess, base)
        else if s.cfg.cap < base + n then some (.boundsFault, base)
        else none

/-- FLAGS after a command that completes. -/
def flagsAfter : Instr → Flags → Flags
  | .setSign w a, f => { f with sf := evalSign w a }
  | .setParity a, f => { f with pf := evalParity a }
  | .setZero w a, f => { f with zf := evalZero w a }
  | .setAux a b c, f => { f with af := evalAux a b c }
  | .setOvfAdd w a b c, f => { f with of_ := evalOvfAdd w a b c }
  | .setOvfSub w a b c, f => { f with of_ := evalOvfSub w a b c }
  | .setCarry w a, f => { f with cf := evalCarry w a }
  | .deserialize a, f => unpack (a.extractLsb' 0 16) f
  | .wrTf v, f => { f with tf := v }
  | .wrIf v, f => { f with if_ := v }
  | .wrDf v, f => { f with df := v }
  | _, f => f

/-- The store after a command that completes. -/
def memAfter : Instr → Memory → Memory
  | .writeByte _ seg off a, m => m.writeByte (lin seg off) a
  | .writeWord _ seg off a, m => m.writeHalf (lin seg off) a
  | .writeBlock _ seg off data, m => m.writeBlock (lin seg off) data
  | _, m => m

/-- The response of a command that completes. -/
def answer (i : Instr) (s : State) : Response :=
  match i with
  | .serialize => ⟨.ok, halfResult (pack s.flags), []⟩
  | .translate _ seg off => ⟨.ok, linearResult (lin seg off), []⟩
  | .readByte _ seg off => ⟨.ok, byteResult (s.mem.readByte (lin seg off)), []⟩
  | .readWord _ seg off => ⟨.ok, halfResult (s.mem.readHalf (lin seg off)), []⟩
  | .readBlock _ seg off a => ⟨.ok, 0, s.mem.readBlock (lin seg off) a.toNat⟩
  | .snapshot _ => ⟨.ok, 0, s.mem.readBlock 0 s.cfg.cap⟩
  | _ => ⟨.ok, 0, []⟩

/-- The state after a command that completes. -/
def completed (i : Instr) (s : State) : State :=
  { s with flags := flagsAfter i s.flags, mem := memAfter i s.mem, rsp := some (answer i s) }

/-- An MMU command's `op` is its mnemonic's code. -/
theorem op_of_handle {i : Instr} {h : Nat} (hi : i.handle = some h) : i.op = i.opcode.code := by
  cases i <;> first | (cases hi; done) | (simp only [Instr.op, Instr.opcode, Instr.subBit]; decide)

/-- The halt check is the first thing every command meets (60_exceptions R190). -/
theorem exec_halted {i : Instr} {s : State} (hs : s.faultCode ≠ 0) : exec i s = .next s.refuse := by
  cases i <;>
    simp only [exec, execSetSign, execSetParity, execSetZero, execSetAux, execSetOvfAdd, execSetOvfSub,
      execSetCarry, execDeserialize, execSerialize, execWrTf, execWrIf, execWrDf, execTranslate, execReadByte,
      execReadWord, execWriteByte, execWriteWord, execReadBlock, execWriteBlock, execSnapshot, writeFlags,
      storeCommand, withHandle, unlessHalted_halted _ hs]

/-- What `exec` answers, for every command and in every state. -/
theorem exec_eq (i : Instr) (s : State) :
    exec i s = .next (if s.faultCode ≠ 0 then s.refuse
      else match raises i s with
        | some (f, info) => s.raise f i.op info
        | none => completed i s) := by
  by_cases hs : s.faultCode = 0
  · rw [if_neg (by simpa using hs)]
    by_cases hh : ∃ h, i.handle = some h ∧ s.cfg.nHandles ≤ h
    · obtain ⟨h, hi, hn⟩ := hh
      rw [show raises i s = some (.illegalCommand, 0) by simp [raises, hi, hn]]
      simp only [op_of_handle hi]
      cases i <;> cases hi <;>
        simp only [exec, execTranslate, execReadByte, execReadWord, execWriteByte, execWriteWord, execReadBlock,
          execWriteBlock, execSnapshot, storeCommand] <;>
        exact withHandle_invalid _ _ hs hn
    · cases ha : storeAccess s.cfg.cap i with
      | none =>
        have : raises i s = none := by
          unfold raises
          split
          · rfl
          · rw [if_neg fun hn => hh ⟨_, ‹_›, hn⟩]
            simp [ha]
        rw [this]
        cases i <;> first
          | (cases ha; done)
          | (simp only [exec, execSetSign, execSetParity, execSetZero, execSetAux, execSetOvfAdd, execSetOvfSub,
              execSetCarry, execDeserialize, execWrTf, execWrIf, execWrDf]
             exact writeFlags_running _ hs)
          | (simp only [exec, execSerialize]; exact unlessHalted_running _ hs)
          | (simp only [exec, execTranslate]
             exact withHandle_valid _ _ hs (Nat.not_le.mp fun hn => hh ⟨_, rfl, hn⟩))
      | some p =>
        obtain ⟨base, n⟩ := p
        obtain ⟨h, hi⟩ : ∃ h, i.handle = some h := by cases i <;> first | exact ⟨_, rfl⟩ | cases ha
        have hn : h < s.cfg.nHandles := Nat.not_le.mp fun hn => hh ⟨h, hi, hn⟩
        cases hb : s.busy with
        | true =>
          rw [show raises i s = some (.reentrantAccess, base) by
            simp [raises, hi, ha, hb, Nat.not_le.mpr hn]]
          simp only [op_of_handle hi]
          cases i <;> cases hi <;> cases ha <;>
            simp only [exec, execReadByte, execReadWord, execWriteByte, execWriteWord, execReadBlock, execWriteBlock,
              execSnapshot] <;>
            exact storeCommand_busy _ _ _ _ hs hn hb
        | false =>
          by_cases hr : base + n ≤ s.cfg.cap
          · rw [show raises i s = none by
              simp [raises, hi, ha, hb, Nat.not_le.mpr hn, Nat.not_lt.mpr hr]]
            obtain ⟨flags, mem, busy, faultCode, faultOp, faultAddr, rsp, host, cfg⟩ := s
            cases hb
            cases i <;> cases hi <;> cases ha <;>
            simp only [exec, execReadByte, execReadWord, execWriteByte, execWriteWord, execReadBlock, execWriteBlock,
              execSnapshot] <;>
            exact storeCommand_inRange _ _ hs hn rfl hr
          · rw [show raises i s = some (.boundsFault, base) by
              simp [raises, hi, ha, hb, Nat.not_le.mpr hn, Nat.not_le.mp hr]]
            simp only [op_of_handle hi]
            cases i <;> cases hi <;> cases ha <;>
              simp only [exec, execReadByte, execReadWord, execWriteByte, execWriteWord, execReadBlock, execWriteBlock,
              execSnapshot] <;>
              exact storeCommand_outOfRange _ _ hs hn hb (Nat.not_le.mp hr)
  · rw [if_pos hs]
    exact exec_halted hs

/-- Every command answers a next state. -/
theorem exec_next (i : Instr) (s : State) : ∃ t, exec i s = .next t := ⟨_, exec_eq i s⟩

/-- The three things a command can do. -/
theorem exec_cases {i : Instr} {s t : State} (h : exec i s = .next t) :
    s.faultCode ≠ 0 ∧ t = s.refuse ∨
    (∃ f info, s.faultCode = 0 ∧ raises i s = some (f, info) ∧ t = s.raise f i.op info) ∨
    s.faultCode = 0 ∧ raises i s = none ∧ t = completed i s := by
  rw [exec_eq] at h
  cases h
  by_cases hs : s.faultCode = 0
  · rw [if_neg (by simpa using hs)]
    cases hr : raises i s with
    | none => exact .inr (.inr ⟨hs, rfl, rfl⟩)
    | some p => exact .inr (.inl ⟨p.1, p.2, hs, rfl, rfl⟩)
  · exact .inl ⟨hs, if_pos hs⟩

theorem exec_completes {i : Instr} {s : State} (hs : s.faultCode = 0) (hr : raises i s = none) :
    exec i s = .next (completed i s) := by
  simp [exec_eq, hs, hr]

theorem exec_raises {i : Instr} {s : State} {f : Fault} {info : Nat} (hs : s.faultCode = 0)
    (hr : raises i s = some (f, info)) : exec i s = .next (s.raise f i.op info) := by
  simp [exec_eq, hs, hr]

/-- A FLAGS command raises nothing (60_exceptions R182). -/
theorem raises_of_noHandle {i : Instr} (s : State) (h : i.handle = none) : raises i s = none := by
  simp [raises, h]

/-- A TRANSLATE with a valid handle raises nothing, whatever `BUSY` is. -/
theorem raises_of_noAccess {i : Instr} {s : State} {h : Nat} (hi : i.handle = some h)
    (hn : h < s.cfg.nHandles) (ha : storeAccess s.cfg.cap i = none) : raises i s = none := by
  simp [raises, hi, ha, Nat.not_le.mpr hn]

theorem raises_inRange {i : Instr} {s : State} {h base n : Nat} (hi : i.handle = some h)
    (hn : h < s.cfg.nHandles) (hb : s.busy = false) (ha : storeAccess s.cfg.cap i = some (base, n))
    (hr : base + n ≤ s.cfg.cap) : raises i s = none := by
  simp [raises, hi, ha, hb, Nat.not_le.mpr hn, Nat.not_lt.mpr hr]

/-- A FLAGS command completes whenever CORE is not halted (40_flags_ops R110). -/
theorem exec_flags {i : Instr} {s : State} (hs : s.faultCode = 0) (hi : i.handle = none) :
    exec i s = .next (completed i s) :=
  exec_completes hs (raises_of_noHandle s hi)

/-- A store access in range, through a valid handle, with the store free, completes. -/
theorem exec_inRange {i : Instr} {s : State} {h base n : Nat} (hs : s.faultCode = 0)
    (hi : i.handle = some h) (hn : h < s.cfg.nHandles) (hb : s.busy = false)
    (ha : storeAccess s.cfg.cap i = some (base, n)) (hr : base + n ≤ s.cfg.cap) :
    exec i s = .next (completed i s) :=
  exec_completes hs (raises_inRange hi hn hb ha hr)

/-- The faults of a store access. -/
theorem accessFaults {i : Instr} {s : State} {h base n : Nat} (hi : i.handle = some h)
    (ha : storeAccess s.cfg.cap i = some (base, n)) : s.AccessFaults i h base n := by
  refine fun hs => ⟨fun hn => ?_, fun hn hb => ?_, fun hn hb hc => ?_⟩
  · exact exec_raises (f := .illegalCommand) (info := 0) hs (by simp [raises, hi, hn])
  · exact exec_raises (f := .reentrantAccess) (info := base) hs (by simp [raises, hi, ha, hb, Nat.not_le.mpr hn])
  · exact exec_raises (f := .boundsFault) (info := base) hs (by simp [raises, hi, ha, hb, hc, Nat.not_le.mpr hn])

/-- What it takes to raise each fault. -/
theorem raises_some {i : Instr} {s : State} {f : Fault} {info : Nat} (hr : raises i s = some (f, info)) :
    ∃ h, i.handle = some h ∧
      (f = .illegalCommand ∧ info = 0 ∧ s.cfg.nHandles ≤ h ∨
       ∃ n, storeAccess s.cfg.cap i = some (info, n) ∧ h < s.cfg.nHandles ∧
        (f = .reentrantAccess ∧ s.busy = true ∨
         f = .boundsFault ∧ s.busy = false ∧ s.cfg.cap < info + n)) := by
  unfold raises at hr
  split at hr
  · cases hr
  · rename_i h hi
    refine ⟨h, hi, ?_⟩
    split at hr
    · cases hr; exact .inl ⟨rfl, rfl, ‹_›⟩
    · split at hr
      · cases hr
      · rename_i base n ha
        split at hr
        · cases hr; exact .inr ⟨n, ha, by omega, .inl ⟨rfl, ‹_›⟩⟩
        · split at hr
          · cases hr; exact .inr ⟨n, ha, by omega, .inr ⟨rfl, by simpa using ‹¬ s.busy = true›, ‹_›⟩⟩
          · cases hr

/-- The unit of a mnemonic is the MMU exactly when its format consumes a handle (30_encoding R85, R87). -/
theorem opUnit_code (o : Opcode) (s : Bool) :
    opUnit (o.code ||| (BitVec.ofBool s).setWidth 8) =
      if Field.h ∈ o.format.consumes then .mmu else .flags := by
  cases o <;> cases s <;> decide

/-- A FLAGS command is one without a handle. -/
theorem unit_flags_iff (i : Instr) : i.unit = .flags ↔ i.handle = none := by
  rw [Instr.unit, Instr.op, opUnit_code]
  cases i <;> simp [Instr.opcode, Opcode.format, Format.consumes, Instr.handle]

theorem unit_mmu_iff (i : Instr) : i.unit = .mmu ↔ ∃ h, i.handle = some h := by
  rw [Instr.unit, Instr.op, opUnit_code]
  cases i <;> simp [Instr.opcode, Opcode.format, Format.consumes, Instr.handle]

/-- A write in range keeps the store sound. -/
theorem storeSound_memAfter {i : Instr} {s : State} (hs : s.StoreSound) (hr : raises i s = none) :
    (memAfter i s.mem).wf ∧ (memAfter i s.mem).within s.cfg.cap := by
  have inRange : ∀ h base n, i.handle = some h → storeAccess s.cfg.cap i = some (base, n) →
      base + n ≤ s.cfg.cap := by
    intro h base n hi ha
    by_contra hc
    unfold raises at hr
    rw [hi] at hr
    simp only [ha] at hr
    split at hr
    · cases hr
    · split at hr
      · cases hr
      · rw [if_pos (by omega)] at hr; cases hr
  cases i with
  | writeByte h seg off a =>
    have := inRange h _ _ rfl rfl
    exact ⟨Memory.wf_write hs.1 _ _, Memory.within_write hs.2 (by omega) _⟩
  | writeWord h seg off a =>
    have := inRange h _ _ rfl rfl
    exact ⟨Memory.wf_write (Memory.wf_write hs.1 _ _) _ _,
      Memory.within_write (Memory.within_write hs.2 (by omega) _) (by omega) _⟩
  | writeBlock h seg off data =>
    exact ⟨Memory.wf_writeBlock hs.1 _ _, Memory.within_writeBlock hs.2 (inRange h _ _ rfl rfl)⟩
  | _ => exact hs

end Sys2Proof.Machine
end

