-- ==== Sys2Proof/Laws/Flags.lean ====
section
/-!
SUPPORT. The evaluators read single bits: the mask formulas of 40_flags_ops in the bit form the same rules give, and
the packed word bit by bit.
-/

namespace Sys2Proof.Machine

/-- A mask of one bit reads that bit. -/
theorem and_bit_ne_zero (a m : Word) (i : Nat) (hi : i < 32) (hm : m = BitVec.twoPow 32 i) :
    (a &&& m != 0) = a.getLsbD i := by
  subst hm
  rw [BitVec.and_twoPow]
  have : BitVec.twoPow 32 i ≠ 0#32 := fun h => by
    have := congrArg (BitVec.getLsbD · i) h
    simp [hi] at this
  cases a.getLsbD i <;> simp [this]

theorem signBit_eq (w : Width) : signBit w = BitVec.twoPow 32 (widthBits w - 1) := by
  cases w <;> decide

theorem carryOutBit_eq (w : Width) : carryOutBit w = BitVec.twoPow 32 (widthBits w) := by
  cases w <;> decide

/-- `SF <- a[w-1]` (40_flags_ops R112). -/
theorem evalSign_eq (w : Width) (a : Word) : evalSign w a = a.getLsbD (widthBits w - 1) :=
  and_bit_ne_zero _ _ _ (by cases w <;> decide) (signBit_eq w)

/-- `CF <- a[w]` (40_flags_ops R125). -/
theorem evalCarry_eq (w : Width) (a : Word) : evalCarry w a = a.getLsbD (widthBits w) :=
  and_bit_ne_zero _ _ _ (by cases w <;> decide) (carryOutBit_eq w)

/-- `AF <- a[4] ^ b[4] ^ c[4]` (40_flags_ops R118). -/
theorem evalAux_eq (a b c : Word) : evalAux a b c = (a.getLsbD 4 ^^ b.getLsbD 4 ^^ c.getLsbD 4) := by
  rw [evalAux, and_bit_ne_zero _ _ 4 (by decide) (by decide)]
  simp

/-- `OF <- (a[s] ^ b[s]) & (a[s] ^ c[s])` (40_flags_ops R120). -/
theorem evalOvfAdd_eq (w : Width) (a b c : Word) :
    evalOvfAdd w a b c =
      ((a.getLsbD (widthBits w - 1) ^^ b.getLsbD (widthBits w - 1)) &&
        (a.getLsbD (widthBits w - 1) ^^ c.getLsbD (widthBits w - 1))) := by
  rw [evalOvfAdd, and_bit_ne_zero _ _ _ (by cases w <;> decide) (signBit_eq w)]
  simp

/-- `OF <- (c[s] ^ b[s]) & (c[s] ^ a[s])` (40_flags_ops R122). -/
theorem evalOvfSub_eq (w : Width) (a b c : Word) :
    evalOvfSub w a b c =
      ((c.getLsbD (widthBits w - 1) ^^ b.getLsbD (widthBits w - 1)) &&
        (c.getLsbD (widthBits w - 1) ^^ a.getLsbD (widthBits w - 1))) := by
  rw [evalOvfSub, and_bit_ne_zero _ _ _ (by cases w <;> decide) (signBit_eq w)]
  simp

theorem toNat_widthMask (w : Width) : (widthMask w).toNat = 2 ^ widthBits w - 1 := by
  cases w <;> rfl

/-- `ZF <- (a[w-1:0] == 0)` (40_flags_ops R116). -/
theorem evalZero_eq (w : Width) (a : Word) : evalZero w a = decide (a.toNat % 2 ^ widthBits w = 0) := by
  rw [evalZero, beq_eq_decide]
  congr 1
  rw [← BitVec.toNat_inj, BitVec.toNat_and, toNat_widthMask, Nat.and_two_pow_sub_one_eq_mod]
  rfl

/-- `PF <- (a[0] == 0)` (40_flags_ops R114). -/
theorem evalParity_eq (a : Word) : evalParity a = decide (a.toNat % 2 = 0) := by
  rw [evalParity, BitVec.getLsbD, Nat.testBit_zero]
  rcases Nat.mod_two_eq_zero_or_one a.toNat with h | h <;> simp [h]

/-- A flag at its place is the only bit of its word. -/
theorem getLsbD_flagAt (b : Bool) (place k : Nat) :
    (flagAt b place).getLsbD k = (decide (k < 16) && (decide (k = place) && b)) := by
  rw [flagAt, BitVec.getLsbD_shiftLeft, BitVec.getLsbD_setWidth, BitVec.getLsbD_ofBool]
  by_cases h : k = place
  · subst h; simp
  · by_cases h2 : k < place
    · simp [h, h2]
    · simp [h, show k - place ≠ 0 by omega]

/-- The packed word bit by bit (10_state R22). -/
theorem getLsbD_pack (f : Flags) (k : Nat) :
    (pack f).getLsbD k =
      match k with
      | 0 => f.cf | 2 => f.pf | 4 => f.af | 6 => f.zf | 7 => f.sf | 8 => f.tf | 9 => f.if_ | 10 => f.df
      | 11 => f.of_ | 12 => f.iopl.getLsbD 0 | 13 => f.iopl.getLsbD 1 | 14 => f.nt | 15 => true
      | _ => false := by
  by_cases hk : k < 16
  · simp only [pack, BitVec.getLsbD_or, getLsbD_flagAt, BitVec.getLsbD_shiftLeft,
      BitVec.getLsbD_setWidth]
    interval_cases k <;> simp
  · rw [BitVec.getLsbD_of_ge _ _ (by omega)]
    split <;> first | omega | rfl

end Sys2Proof.Machine
end

