-- ==== Sys2Proof/Laws/PerInstr.lean ====
section
/-! SUPPORT. Statements made per instruction, one lemma a constructor: that the operation code of an instruction
decodes to its mnemonic, and that the fixed part of its image has eighteen bytes. -/

namespace Sys2Proof.Laws.OpDecodes

/-- The operation code decodes to the instruction's mnemonic and `S` bit (30_encoding R88, R92). -/
def Statement (i : Instr) : Prop := decodeOp i.op = .ok (i.opcode, i.opcode.bitOf i.subBit)

theorem setSign (w : Width) (a : Word) : Statement (.setSign w a) := decodeOp_op _
theorem setParity (a : Word) : Statement (.setParity a) := decodeOp_op _
theorem setZero (w : Width) (a : Word) : Statement (.setZero w a) := decodeOp_op _
theorem setAux (a b c : Word) : Statement (.setAux a b c) := decodeOp_op _
theorem setOvfAdd (w : Width) (a b c : Word) : Statement (.setOvfAdd w a b c) := decodeOp_op _
theorem setOvfSub (w : Width) (a b c : Word) : Statement (.setOvfSub w a b c) := decodeOp_op _
theorem setCarry (w : Width) (a : Word) : Statement (.setCarry w a) := decodeOp_op _
theorem deserialize (a : Word) : Statement (.deserialize a) := decodeOp_op _
theorem serialize : Statement .serialize := decodeOp_op _
theorem wrTf (v : Bool) : Statement (.wrTf v) := decodeOp_op _
theorem wrIf (v : Bool) : Statement (.wrIf v) := decodeOp_op _
theorem wrDf (v : Bool) : Statement (.wrDf v) := decodeOp_op _
theorem translate (h : Nat) (seg off : Half) : Statement (.translate h seg off) := decodeOp_op _
theorem readByte (h : Nat) (seg off : Half) : Statement (.readByte h seg off) := decodeOp_op _
theorem readWord (h : Nat) (seg off : Half) : Statement (.readWord h seg off) := decodeOp_op _
theorem writeByte (h : Nat) (seg off : Half) (a : Word) : Statement (.writeByte h seg off a) := decodeOp_op _
theorem writeWord (h : Nat) (seg off : Half) (a : Word) : Statement (.writeWord h seg off a) := decodeOp_op _
theorem readBlock (h : Nat) (seg off : Half) (a : Word) : Statement (.readBlock h seg off a) := decodeOp_op _
theorem writeBlock (h : Nat) (seg off : Half) (data : List Byte) : Statement (.writeBlock h seg off data) :=
  decodeOp_op _
theorem snapshot (h : Nat) : Statement (.snapshot h) := decodeOp_op _

end Sys2Proof.Laws.OpDecodes

namespace Sys2Proof.Laws.ImageLength

/-- An image is its eighteen fixed bytes and the bytes of `data` (30_encoding R94, R99). -/
def Statement (i : Instr) : Prop := (encode i).length = 18 + i.toCommand.data.length

theorem length_encode (i : Instr) : Statement i := by
  simp only [Statement, encode, imageOfCommand, bytesOfHalf, bytesOfWord, List.cons_append, List.nil_append,
    List.length_cons]
  omega

theorem setSign (w : Width) (a : Word) : Statement (.setSign w a) := length_encode _
theorem setParity (a : Word) : Statement (.setParity a) := length_encode _
theorem setZero (w : Width) (a : Word) : Statement (.setZero w a) := length_encode _
theorem setAux (a b c : Word) : Statement (.setAux a b c) := length_encode _
theorem setOvfAdd (w : Width) (a b c : Word) : Statement (.setOvfAdd w a b c) := length_encode _
theorem setOvfSub (w : Width) (a b c : Word) : Statement (.setOvfSub w a b c) := length_encode _
theorem setCarry (w : Width) (a : Word) : Statement (.setCarry w a) := length_encode _
theorem deserialize (a : Word) : Statement (.deserialize a) := length_encode _
theorem serialize : Statement .serialize := length_encode _
theorem wrTf (v : Bool) : Statement (.wrTf v) := length_encode _
theorem wrIf (v : Bool) : Statement (.wrIf v) := length_encode _
theorem wrDf (v : Bool) : Statement (.wrDf v) := length_encode _
theorem translate (h : Nat) (seg off : Half) : Statement (.translate h seg off) := length_encode _
theorem readByte (h : Nat) (seg off : Half) : Statement (.readByte h seg off) := length_encode _
theorem readWord (h : Nat) (seg off : Half) : Statement (.readWord h seg off) := length_encode _
theorem writeByte (h : Nat) (seg off : Half) (a : Word) : Statement (.writeByte h seg off a) := length_encode _
theorem writeWord (h : Nat) (seg off : Half) (a : Word) : Statement (.writeWord h seg off a) := length_encode _
theorem readBlock (h : Nat) (seg off : Half) (a : Word) : Statement (.readBlock h seg off a) := length_encode _
theorem writeBlock (h : Nat) (seg off : Half) (data : List Byte) : Statement (.writeBlock h seg off data) :=
  length_encode _
theorem snapshot (h : Nat) : Statement (.snapshot h) := length_encode _

end Sys2Proof.Laws.ImageLength
end

