-- ==== Sys2Proof/Laws/Step.lean ====
section
/-! SUPPORT. What one step can do, said once: idle, a reset, a decoded command, a reserved one. -/

namespace Sys2Proof.Machine

theorem step_idle {s : State} (h : s.host = []) : step s = .next s := by
  simp [step, advance, h]

theorem step_reset {s : State} {rest : List HostMove} (h : s.host = .reset :: rest) :
    step s = .next (applyReset { s with host := rest }) := by
  simp [step, advance, h]

theorem step_command {s : State} {c : Command} {rest : List HostMove} (h : s.host = .command c :: rest) :
    step s = runCommand c { s with host := rest } := by
  simp [step, advance, h]

theorem runCommand_ok {c : Command} {i : Instr} (s : State) (h : decodeCommand c = .ok i) :
    runCommand c s = exec i s := by
  simp [runCommand, h]

theorem runCommand_error {c : Command} {e : DecodeError} (s : State) (h : decodeCommand c = .error e) :
    runCommand c s = execReserved c.op s := by
  simp [runCommand, h]

/-- The four things a step can be. -/
theorem step_cases {s t : State} (h : step s = .next t) :
    s.host = [] ∧ t = s ∨
    (∃ rest, s.host = .reset :: rest ∧ t = applyReset { s with host := rest }) ∨
    (∃ c rest i, s.host = .command c :: rest ∧ decodeCommand c = .ok i ∧
      exec i { s with host := rest } = .next t) ∨
    (∃ c rest e, s.host = .command c :: rest ∧ decodeCommand c = .error e ∧
      execReserved c.op { s with host := rest } = .next t) := by
  match hh : s.host with
  | [] =>
    rw [step_idle hh] at h
    cases h
    exact .inl ⟨rfl, rfl⟩
  | .reset :: rest =>
    rw [step_reset hh] at h
    cases h
    exact .inr (.inl ⟨rest, rfl, rfl⟩)
  | .command c :: rest =>
    rw [step_command hh] at h
    cases hd : decodeCommand c with
    | ok i => exact .inr (.inr (.inl ⟨c, rest, i, rfl, hd, runCommand_ok _ hd ▸ h⟩))
    | error e => exact .inr (.inr (.inr ⟨c, rest, e, rfl, hd, runCommand_error _ hd ▸ h⟩))

end Sys2Proof.Machine
end

