-- ==== Sys2Proof/Laws/Text.lean ====
section
/-!
SUPPORT. Reading what was written, piece by piece: digits, numbers, each kind of argument, separators.
-/

namespace Sys2Proof.Machine

/-- A digit is read as its value. -/
theorem digitValue_digitChar {n : Nat} (h : n < 16) : digitValue (digitChar n) = some n := by
  revert n; decide

/-- A digit is no separator. -/
theorem digitChar_plain {n : Nat} (h : n < 16) :
    digitChar n ∉ [' ', ',', '(', ')', '.', '[', ']', 'x', 'h'] := by
  revert n; decide

theorem readDigits_append (base : Nat) (xs ys : List Char) (acc : Nat) :
    readDigits base (xs ++ ys) acc = (readDigits base xs acc).bind (readDigits base ys) := by
  induction xs generalizing acc with
  | nil => rfl
  | cons c cs ih =>
    simp only [List.cons_append, readDigits]
    split
    · split
      · exact ih _
      · rfl
    · rfl

theorem readDigits_digit {base n acc : Nat} (hb : base ≤ 16) (h : n < base) :
    readDigits base [digitChar n] acc = some (acc * base + n) := by
  simp [readDigits, digitValue_digitChar (Nat.lt_of_lt_of_le h hb), h]

/-- The digits written for a number and then `acc`. -/
theorem digitsBefore_eq (base fuel n : Nat) (acc : List Char) :
    digitsBefore base fuel n acc = digitsBefore base fuel n [] ++ acc := by
  induction fuel generalizing n acc with
  | zero => rfl
  | succ fuel ih =>
    simp only [digitsBefore]
    split
    · rfl
    · rw [ih, ih (n / base) [digitChar (n % base)], List.append_assoc]; rfl

/-- With fuel enough, the digits written for a number read back as it. -/
theorem readDigits_digitsBefore {base : Nat} (h2 : 2 ≤ base) (h16 : base ≤ 16) {fuel n : Nat} (hf : n < fuel) :
    readDigits base (digitsBefore base fuel n []) 0 = some n := by
  induction fuel generalizing n with
  | zero => omega
  | succ fuel ih =>
    simp only [digitsBefore]
    split
    · rw [readDigits_digit h16 ‹_›]; simp
    · rename_i hn
      have hlt : n / base < n := Nat.div_lt_self (by omega) (by omega)
      rw [digitsBefore_eq, readDigits_append, ih (by omega), Option.bind_some,
        readDigits_digit h16 (Nat.mod_lt _ (by omega)), Nat.div_add_mod']

/-- What is written for a number has a digit and digits only. -/
theorem digitsBefore_plain {base : Nat} (h2 : 2 ≤ base) (h16 : base ≤ 16) (fuel n : Nat) :
    ∀ c ∈ digitsBefore base fuel n [], ∃ d < 16, c = digitChar d := by
  induction fuel generalizing n with
  | zero => simp [digitsBefore]
  | succ fuel ih =>
    simp only [digitsBefore]
    split
    · simp only [List.mem_singleton, forall_eq]; exact ⟨n, by omega, rfl⟩
    · rw [digitsBefore_eq]
      intro c hc
      rcases List.mem_append.mp hc with hc | hc
      · exact ih _ c hc
      · exact ⟨_, Nat.lt_of_lt_of_le (Nat.mod_lt _ (by omega)) h16, by simpa using hc⟩

theorem digitsBefore_ne_nil (base fuel n : Nat) : digitsBefore base (fuel + 1) n [] ≠ [] := by
  simp only [digitsBefore]
  split
  · simp
  · rw [digitsBefore_eq]; simp

theorem readDigits_hexDigits (count n acc : Nat) :
    readDigits 16 (hexDigits count n) acc = some (acc * 16 ^ count + n % 16 ^ count) := by
  induction count generalizing n with
  | zero => simp [hexDigits, readDigits, Nat.mod_one]
  | succ count ih =>
    rw [hexDigits, readDigits_append, ih, Option.bind_some, readDigits_digit (by omega) (Nat.mod_lt _ (by omega)),
      Nat.pow_succ, Nat.mul_comm (16 ^ count) 16, Nat.mod_mul]
    congr 1
    ring

theorem hexDigits_plain (count n : Nat) : ∀ c ∈ hexDigits count n, ∃ d < 16, c = digitChar d := by
  induction count generalizing n with
  | zero => simp [hexDigits]
  | succ count ih =>
    intro c hc
    rcases List.mem_append.mp hc with hc | hc
    · exact ih _ c hc
    · exact ⟨_, Nat.mod_lt _ (by omega), by simpa using hc⟩

theorem hexDigits_length (count n : Nat) : (hexDigits count n).length = count := by
  induction count generalizing n with
  | zero => rfl
  | succ count ih => simp [hexDigits, ih]

/-! ## Separators -/

/-- A text without the separator before one: the first part. -/
theorem cutAt_append {sep : Char} {xs : List Char} (h : sep ∉ xs) (ys : List Char) :
    cutAt sep (xs ++ sep :: ys) = xs :: cutAt sep ys := by
  induction xs with
  | nil => simp [cutAt]
  | cons c cs ih =>
    simp only [List.mem_cons, not_or] at h
    simp only [List.cons_append, cutAt, if_neg (Ne.symm h.1), ih h.2]

theorem cutAt_plain {sep : Char} {xs : List Char} (h : sep ∉ xs) : cutAt sep xs = [xs] := by
  induction xs with
  | nil => rfl
  | cons c cs ih =>
    simp only [List.mem_cons, not_or] at h
    simp only [cutAt, if_neg (Ne.symm h.1), ih h.2]

/-- A text that begins and ends with no space is trimmed already. -/
theorem trimSpaces_eq {xs : List Char} (h1 : xs.head? ≠ some ' ') (h2 : xs.getLast? ≠ some ' ') :
    trimSpaces xs = xs := by
  have drop : ∀ ys : List Char, ys.head? ≠ some ' ' → ys.dropWhile (· = ' ') = ys := by
    intro ys hy
    cases ys with
    | nil => rfl
    | cons c cs => simp at hy; simp [hy]
  rw [trimSpaces, drop xs h1, drop xs.reverse (by simpa using h2), List.reverse_reverse]

theorem trimSpaces_space (xs : List Char) : trimSpaces (' ' :: xs) = trimSpaces xs := by
  simp [trimSpaces]

/-! ## Arguments -/

theorem readNumber_writeHex (n : Nat) : readNumber (writeHex n) = some n := by
  have hr := readDigits_digitsBefore (base := 16) (by omega) (by omega) (Nat.lt_succ_self n)
  have hne := digitsBefore_ne_nil 16 n n
  rw [writeHex]
  cases hd : digitsBefore 16 (n + 1) n [] with
  | nil => exact absurd hd hne
  | cons c cs => rw [hd] at hr; exact hr

theorem readBits_writeValue (v : Word) : readBits 32 (writeValue v) = some v := by
  simp [readBits, writeValue, readNumber_writeHex, v.isLt]

theorem readBits_writeHalf (v : Half) : readBits 16 (writeHalf v) = some v := by
  have hr := readDigits_hexDigits 4 v.toNat 0
  have hl := hexDigits_length 4 v.toNat
  have : readNumber (writeHalf v) = some v.toNat := by
    rw [writeHalf]
    cases hd : hexDigits 4 v.toNat with
    | nil => rw [hd] at hl; cases hl
    | cons c cs =>
      rw [hd] at hr
      simp only [readNumber, hr]
      have := v.isLt
      simp; omega
  simp [readBits, this, v.isLt]

theorem readNumber_writeDecimal (n : Nat) : readNumber (writeDecimal n) = some n := by
  have hr := readDigits_digitsBefore (base := 10) (by omega) (by omega) (Nat.lt_succ_self n)
  have hp := digitsBefore_plain (base := 10) (by omega) (by omega) (n + 1) n
  have hne := digitsBefore_ne_nil 10 n n
  rw [writeDecimal]
  have hx : ∀ cs, digitsBefore 10 (n + 1) n [] ≠ '0' :: 'x' :: cs := by
    intro cs hc
    rw [hc] at hp
    obtain ⟨d, hd, he⟩ := hp 'x' (by simp)
    exact digitChar_plain hd (by rw [← he]; simp)
  rw [readNumber]
  · exact hr
  · exact hne
  · exact hx []
  · intro d cs; exact hx _

theorem readBits_writeDecimal (v : Word) : readBits 32 (writeDecimal v.toNat) = some v := by
  simp [readBits, readNumber_writeDecimal, v.isLt]

theorem readWidth_writeWidth (w : Width) : readWidth (writeWidth w) = some w := by cases w <;> decide

theorem readFlag_writeFlag (v : Bool) : readFlag (writeFlag v) = some v := by cases v <;> decide

theorem readByteHex_writeByteHex (b : Byte) : readByteHex (writeByteHex b) = some b := by
  have hr := readDigits_hexDigits 2 b.toNat 0
  have hl := hexDigits_length 2 b.toNat
  rw [writeByteHex]
  match hd : hexDigits 2 b.toNat, hl with
  | [x, y], _ =>
    rw [hd] at hr
    have := b.isLt
    simp only [readByteHex, hr, Option.map_some, Option.some.injEq]
    apply BitVec.eq_of_toNat_eq
    simp; omega


/-! ## Lists of parts -/

/-- A part that stands whole between separators: without any of them, and with no space at its ends. -/
structure Plain (xs : List Char) : Prop where
  comma : ',' ∉ xs
  parens : '(' ∉ xs
  dot : '.' ∉ xs
  first : xs.head? ≠ some ' '
  last : xs.getLast? ≠ some ' '

theorem cutAt_bytes {w : List Char} {ws : List (List Char)} (h : ∀ x ∈ w :: ws, ' ' ∉ x) :
    cutAt ' ' (List.intercalate [' '] (w :: ws)) = w :: ws := by
  induction ws generalizing w with
  | nil => simpa [List.intercalate] using cutAt_plain (h w (by simp))
  | cons v ws ih =>
    rw [List.intercalate_cons_cons, List.append_assoc, List.singleton_append,
      cutAt_append (h w (by simp)), ih fun x hx => h x (by simp [hx])]

theorem map_trim_cutAt_space (ys : List Char) :
    (cutAt ',' (' ' :: ys)).map trimSpaces = (cutAt ',' ys).map trimSpaces := by
  have ne : cutAt ',' ys ≠ [] := by
    cases ys with
    | nil => simp [cutAt]
    | cons c cs => simp only [cutAt]; split <;> [simp; (split <;> simp)]
  rw [cutAt, if_neg (by decide)]
  cases h : cutAt ',' ys with
  | nil => exact absurd h ne
  | cons w ws => simp [trimSpaces_space]

theorem cutAt_arguments {w : List Char} {ws : List (List Char)} (h : ∀ x ∈ w :: ws, Plain x) :
    (cutAt ',' (List.intercalate [',', ' '] (w :: ws))).map trimSpaces = w :: ws := by
  have trim : ∀ x ∈ w :: ws, trimSpaces x = x := fun x hx => trimSpaces_eq (h x hx).first (h x hx).last
  induction ws generalizing w with
  | nil => simp [List.intercalate, cutAt_plain (h w (by simp)).comma, trim w (by simp)]
  | cons v ws ih =>
    have ih := ih (w := v) (fun x hx => h x (by simp [hx])) (fun x hx => trim x (by simp [hx]))
    rw [List.intercalate_cons_cons, List.append_assoc]
    show (cutAt ',' (w ++ ',' :: (' ' :: _))).map trimSpaces = _
    rw [cutAt_append (h w (by simp)).comma, List.map_cons, trim w (by simp)]
    rw [map_trim_cutAt_space]
    exact congrArg _ ih

theorem readByteList_writeByteList (data : List Byte) : readByteList (writeByteList data) = some data := by
  have hm : (data.map writeByteHex).mapM readByteHex = some data := by
    induction data with
    | nil => rfl
    | cons b data ih => simp [List.mapM_cons, readByteHex_writeByteHex, ih]
  have hne : ∀ x ∈ data.map writeByteHex, x ≠ [] := by
    intro x hx hx0
    obtain ⟨b, -, rfl⟩ := List.mem_map.mp hx
    have := hexDigits_length 2 b.toNat
    rw [writeByteHex] at hx0; rw [hx0] at this; cases this
  have hsp : ∀ x ∈ data.map writeByteHex, ' ' ∉ x := by
    intro x hx hc
    obtain ⟨b, -, rfl⟩ := List.mem_map.mp hx
    obtain ⟨d, hd, he⟩ := hexDigits_plain _ _ _ hc
    exact digitChar_plain hd (by rw [← he]; simp)
  simp only [writeByteList, readByteList, List.reverse_append, List.reverse_singleton, List.singleton_append,
    List.reverse_reverse]
  cases hd : data.map writeByteHex with
  | nil => rw [hd] at hm; simpa [List.intercalate, cutAt] using hm
  | cons w ws =>
    rw [hd] at hm hne hsp
    rw [cutAt_bytes hsp, List.filter_eq_self.mpr (by simpa using hne), hm]

end Sys2Proof.Machine
end

