-- ==== Sys2Proof/Tests/Slice0.lean ====
section
/-!
SUPPORT. Tests on fixed values, whose expected results are those of spec/95_test_vectors.md (the section is named
at each), the well-formedness smoke test, and for every statement with hypotheses a witness that meets them.
-/

namespace Sys2Proof.Tests

open Sys2Proof.Machine

/-! ## Helpers -/

/-- The state an instruction leaves. -/
def after (i : Instr) (s : State) : State :=
  match exec i s with
  | .next t => t
  | _ => s

/-- The state one step leaves. -/
def afterStep (s : State) : State :=
  match step s with
  | .next t => t
  | _ => s

/-- The reset state about to receive the command of an image. -/
def given (bytes : List Byte) : State :=
  { State.reset with host := ((commandOfImage bytes).map HostMove.command).toList }

/-- The answer of a command: status, result, data. -/
def answered (s : State) : Option (Status × Word × List Byte) := s.rsp.map fun r => (r.status, r.r, r.rdata)

/-- What SERIALIZE would answer. -/
def packed (s : State) : Half := pack s.flags

/-- The fault latch. -/
def latch (s : State) : BitVec 2 × Byte × Nat := (s.faultCode, s.faultOp, s.faultAddr)

/-- The register with every variable field at its largest value. -/
def allSet : Flags := unpack 0xFFFF Flags.reset

/-- A store of sixteen bytes with one byte in it, and some flags. -/
def small : State :=
  { State.reset with mem := [(3, 0x5A)], flags := { Flags.reset with cf := true, df := true }, cfg := ⟨16, 2⟩ }

/-- The same, halted by an earlier fault. -/
def stopped : State := { small with faultCode := 2, faultOp := 0x83, faultAddr := 15 }

/-- The same, with the store busy: no run meets it. -/
def busyStore : State := { small with busy := true }

theorem exec_after (i : Instr) (s : State) : exec i s = .next (after i s) := by
  obtain ⟨t, ht⟩ := exec_next i s
  rw [after, ht]

/-! ## Well-formedness: a handle that `h8` cannot hold is refused in each of the eight MMU instructions -/

theorem test_illFormed_refused :
    (Instr.translate 256 0 0).wellFormed = false ∧ (Instr.readByte 256 0 0).wellFormed = false ∧
    (Instr.readWord 256 0 0).wellFormed = false ∧ (Instr.writeByte 256 0 0 0).wellFormed = false ∧
    (Instr.writeWord 256 0 0 0).wellFormed = false ∧ (Instr.readBlock 256 0 0 0).wellFormed = false ∧
    (Instr.writeBlock 256 0 0 []).wellFormed = false ∧ (Instr.snapshot 256).wellFormed = false := by decide

theorem test_wellFormed_accepted :
    (Instr.translate 255 0 0).wellFormed = true ∧ (Instr.snapshot 1).wellFormed = true ∧
    (Instr.setAux 0xFFFFFFFF 0 0).wellFormed = true := by decide

/-! ## Decoding: an image of every constructor, written out from 30_encoding R88 and R99 (95_test_vectors 2) -/

theorem test_decode_setSign :
    decode [0x01, 0, 0, 0, 0, 0, 0x00, 0x01, 0x80, 0x00, 0, 0, 0, 0, 0, 0, 0, 0] = .ok (.setSign .w16 0x18000) := by
  decide

theorem test_decode_setParity :
    decode [0x02, 0, 0, 0, 0, 0, 0xFF, 0xFF, 0xFF, 0xFE, 0, 0, 0, 0, 0, 0, 0, 0] = .ok (.setParity 0xFFFFFFFE) := by
  decide

theorem test_decode_setZero :
    decode [0x04, 0, 0, 0, 0, 0, 0x00, 0x00, 0x01, 0x00, 0, 0, 0, 0, 0, 0, 0, 0] = .ok (.setZero .w8 0x100) := by
  decide

theorem test_decode_setAux :
    decode [0x06, 0, 0, 0, 0, 0, 0x00, 0x00, 0x22, 0x33, 0x00, 0x00, 0x12, 0x34, 0x00, 0x00, 0x0F, 0xFF]
      = .ok (.setAux 0x2233 0x1234 0xFFF) := by decide

theorem test_decode_setOvfAdd :
    decode [0x08, 0, 0, 0, 0, 0, 0x00, 0x00, 0x00, 0x80, 0x00, 0x00, 0x00, 0x7F, 0x00, 0x00, 0x00, 0x01]
      = .ok (.setOvfAdd .w8 0x80 0x7F 0x01) := by decide

theorem test_decode_setOvfSub :
    decode [0x0A, 0, 0, 0, 0, 0, 0x00, 0x00, 0x00, 0x7F, 0x00, 0x00, 0x00, 0x01, 0x00, 0x00, 0x00, 0x80]
      = .ok (.setOvfSub .w8 0x7F 0x01 0x80) := by decide

theorem test_decode_setCarry :
    decode [0x0D, 0, 0, 0, 0, 0, 0x00, 0x01, 0x00, 0x00, 0, 0, 0, 0, 0, 0, 0, 0] = .ok (.setCarry .w16 0x10000) := by
  decide

theorem test_decode_deserialize :
    decode [0x0E, 0, 0, 0, 0, 0, 0x12, 0x34, 0x00, 0x41, 0, 0, 0, 0, 0, 0, 0, 0] = .ok (.deserialize 0x12340041) := by
  decide

theorem test_decode_serialize :
    decode [0x10, 0, 0, 0, 0, 0, 0, 0, 0, 0, 0, 0, 0, 0, 0, 0, 0, 0] = .ok .serialize := by decide

theorem test_decode_directWrites :
    decode [0x13, 0, 0, 0, 0, 0, 0, 0, 0, 0, 0, 0, 0, 0, 0, 0, 0, 0] = .ok (.wrTf true) ∧
    decode [0x14, 0, 0, 0, 0, 0, 0, 0, 0, 0, 0, 0, 0, 0, 0, 0, 0, 0] = .ok (.wrIf false) ∧
    decode [0x17, 0, 0, 0, 0, 0, 0, 0, 0, 0, 0, 0, 0, 0, 0, 0, 0, 0] = .ok (.wrDf true) := by decide

theorem test_decode_translate :
    decode [0x80, 0x01, 0x0F, 0xFF, 0x00, 0x20, 0, 0, 0, 0, 0, 0, 0, 0, 0, 0, 0, 0]
      = .ok (.translate 1 0x0FFF 0x0020) := by decide

theorem test_decode_reads :
    decode [0x82, 0x00, 0x10, 0x00, 0x00, 0x11, 0, 0, 0, 0, 0, 0, 0, 0, 0, 0, 0, 0]
      = .ok (.readByte 0 0x1000 0x0011) ∧
    decode [0x83, 0x01, 0x10, 0x00, 0x23, 0x45, 0, 0, 0, 0, 0, 0, 0, 0, 0, 0, 0, 0]
      = .ok (.readWord 1 0x1000 0x2345) := by decide

theorem test_decode_writes :
    decode [0x84, 0x00, 0x12, 0x34, 0x00, 0x05, 0x00, 0x00, 0x01, 0xFF, 0, 0, 0, 0, 0, 0, 0, 0]
      = .ok (.writeByte 0 0x1234 0x0005 0x1FF) ∧
    decode [0x85, 0x00, 0x12, 0x34, 0x00, 0x06, 0x12, 0x34, 0x56, 0x78, 0, 0, 0, 0, 0, 0, 0, 0]
      = .ok (.writeWord 0 0x1234 0x0006 0x12345678) := by decide

theorem test_decode_blocks :
    decode [0x86, 0x01, 0x0F, 0xFF, 0x00, 0x11, 0x00, 0x00, 0x00, 0x03, 0, 0, 0, 0, 0, 0, 0, 0]
      = .ok (.readBlock 1 0x0FFF 0x0011 3) ∧
    decode [0x88, 0x00, 0x10, 0x00, 0x00, 0x02, 0, 0, 0, 0, 0, 0, 0, 0, 0, 0, 0, 0, 0x11, 0x22]
      = .ok (.writeBlock 0 0x1000 0x0002 [0x11, 0x22]) ∧
    decode [0x8A, 0x01, 0, 0, 0, 0, 0, 0, 0, 0, 0, 0, 0, 0, 0, 0, 0, 0] = .ok (.snapshot 1) := by decide

/-- 95_test_vectors 2.16: fields a format does not consume are ignored. -/
theorem test_decode_ignoredFields :
    decode [0x02, 0x07, 0xFF, 0xFF, 0xFF, 0xFF, 0x00, 0x00, 0x00, 0x02, 0xDE, 0xAD, 0xBE, 0xEF, 0xCA, 0xFE, 0xF0, 0x0D]
      = .ok (.setParity 2) ∧
    decode [0x12, 0, 0, 0, 0, 0, 0x00, 0x00, 0x00, 0x01, 0, 0, 0, 0, 0, 0, 0, 0] = .ok (.wrTf false) ∧
    decode [0x88, 0x00, 0x10, 0x00, 0x00, 0x00, 0x00, 0x00, 0x00, 0x63, 0, 0, 0, 0, 0, 0, 0, 0, 0xAA, 0xBB]
      = .ok (.writeBlock 0 0x1000 0x0000 [0xAA, 0xBB]) := by decide

/-- 30_encoding R85, R86d, R88, R92: each reason for a reserved operation code. -/
theorem test_decode_reserved :
    decodeOp 0x03 = .error .subOperand ∧ decodeOp 0x18 = .error .function ∧ decodeOp 0x20 = .error .zField ∧
    decodeOp 0x81 = .error .subOperand ∧ decodeOp 0x8C = .error .function ∧ decodeOp 0xFF = .error .zField ∧
    decode [0x10, 0x00] = .error (.truncated 2) := by decide

/-- The images of 95_test_vectors, written. -/
theorem test_encode_images :
    writeImage (.setOvfAdd .w8 0x80 0x7F 0x01) = "08.00.0000.0000.00000080.0000007F.00000001".toList ∧
    writeImage (.readByte 1 0x2000 0x0005) = "82.01.2000.0005.00000000.00000000.00000000".toList ∧
    writeImage (.writeBlock 0 0x1000 0 [0xDE, 0xAD, 0xBE, 0xEF])
      = "88.00.1000.0000.00000000.00000000.00000000:DEADBEEF".toList := by decide

/-! ## Text (30_encoding R95, R97) -/

theorem test_text_read :
    readText "set_zero(16, 0x10000)".toList = some (.setZero .w16 0x10000) ∧
    readText "set_overflow_sub(16, 0xFFFFFFFF, 0x0002, 0x0001)".toList = some (.setOvfSub .w16 0xFFFFFFFF 2 1) ∧
    readText "write_tf(1)".toList = some (.wrTf true) ∧
    readText "h1.read_word(0x1000, 0x0010)".toList = some (.readWord 1 0x1000 0x10) ∧
    readText "translate(0x1000, 0x0010)".toList = some (.translate 0 0x1000 0x10) ∧
    readText "h0.read_block(0x1000, 0x0000, 4)".toList = some (.readBlock 0 0x1000 0 4) ∧
    readText "h0.write_block(0x1000, 0x0000, [DE AD BE EF])".toList
      = some (.writeBlock 0 0x1000 0 [0xDE, 0xAD, 0xBE, 0xEF]) := by decide

theorem test_text_refused :
    readText "set_sign(32, 0x80)".toList = none ∧ readText "h0.translate(0x10000, 0)".toList = none ∧
    readText "set_parity(0x100000000)".toList = none ∧ readText "serialize(1)".toList = none := by decide

theorem test_text_results :
    writeResult .serialize ⟨.ok, 0x8000, []⟩ = "-> 0x8000".toList ∧
    writeResult (.readBlock 0 0x1000 0 4) ⟨.ok, 0, [0xDE, 0xAD, 0xBE, 0xEF]⟩ = "-> [DE AD BE EF]".toList ∧
    writeResult (.setParity 0) ⟨.ok, 0, []⟩ = [] ∧
    writeResult (.setParity 0) ⟨.halted, 0, []⟩ = "-> !HALTED".toList := by decide

/-! ## The FLAGS unit (95_test_vectors 2.1 to 2.10) -/

theorem test_setSign_w8 :
    packed (after (.setSign .w8 0x180) State.reset) = 0x8080 ∧
    packed (after (.setSign .w8 0xFFFFFF7F) State.reset) = 0x8000 := by decide

theorem test_setSign_w16 :
    packed (after (.setSign .w16 0x18000) State.reset) = 0x8080 ∧
    packed (after (.setSign .w16 0x80) State.reset) = 0x8000 := by decide

theorem test_setParity :
    packed (after (.setParity 0x100) State.reset) = 0x8004 ∧ packed (after (.setParity 3) State.reset) = 0x8000 := by
  decide

/-- A 0 result is written too. -/
theorem test_setParity_clears :
    packed (after (.setParity 1) { State.reset with flags := { Flags.reset with pf := true } }) = 0x8000 := by decide

theorem test_setZero_w8 :
    packed (after (.setZero .w8 0xFFFFFF00) State.reset) = 0x8040 ∧
    packed (after (.setZero .w8 0x1FF) State.reset) = 0x8000 := by decide

theorem test_setZero_w16 :
    packed (after (.setZero .w16 0xFFFF0000) State.reset) = 0x8040 ∧
    packed (after (.setZero .w16 0x100) State.reset) = 0x8000 := by decide

theorem test_setAux_carry :
    packed (after (.setAux 0x10 0x0F 0x01) State.reset) = 0x8010 ∧
    packed (after (.setAux 0x20 0x10 0x10) State.reset) = 0x8000 := by decide

theorem test_setAux_borrow :
    packed (after (.setAux 0xFFFFFFFF 2 1) State.reset) = 0x8010 ∧
    packed (after (.setAux 0 0x10 0x10) State.reset) = 0x8000 := by decide

theorem test_setOvfAdd_w8 :
    packed (after (.setOvfAdd .w8 0x17F 0x80 0xFF) State.reset) = 0x8800 ∧
    packed (after (.setOvfAdd .w8 0x8000 0x7FFF 1) State.reset) = 0x8000 := by decide

theorem test_setOvfAdd_w16 :
    packed (after (.setOvfAdd .w16 0x10000 0x8000 0x8000) State.reset) = 0x8800 ∧
    packed (after (.setOvfAdd .w16 0x80 0x7F 1) State.reset) = 0x8000 := by decide

/-- 2.6: the minuend on operand2 gives the overflow, the roles the other way round do not. -/
theorem test_setOvfSub_w8 :
    packed (after (.setOvfSub .w8 0x7F 0x01 0x80) State.reset) = 0x8800 ∧
    packed (after (.setOvfSub .w8 0x7F 0x80 0x01) State.reset) = 0x8000 := by decide

theorem test_setOvfSub_w16 :
    packed (after (.setOvfSub .w16 0x8000 0xFFFF 0x7FFF) State.reset) = 0x8800 ∧
    packed (after (.setOvfSub .w16 0x7F 1 0x80) State.reset) = 0x8000 := by decide

theorem test_setCarry_w8 :
    packed (after (.setCarry .w8 0x300) State.reset) = 0x8001 ∧
    packed (after (.setCarry .w8 0x200) State.reset) = 0x8000 := by decide

theorem test_setCarry_w16 :
    packed (after (.setCarry .w16 0xFFFF0000) State.reset) = 0x8001 ∧
    packed (after (.setCarry .w16 0xFFFEFFFF) State.reset) = 0x8000 := by decide

theorem test_deserialize_overwrites :
    packed (after (.deserialize 0xFFFF) State.reset) = 0xFFD5 ∧
    packed (after (.deserialize 0x0001) { State.reset with flags := allSet }) = 0x8001 := by decide

/-- 2.9: `a[31:16]` and the reserved bits are ignored; IOPL and NT are installed. -/
theorem test_deserialize_fields :
    (after (.deserialize 0x12347202) State.reset).flags =
      { Flags.reset with if_ := true, iopl := 3, nt := true } ∧
    packed (after (.deserialize 0x802A) State.reset) = 0x8000 := by decide

theorem test_serialize_reset : answered (after .serialize State.reset) = some (.ok, 0x8000, []) := by decide

/-- 2.8: IOPL is a two-bit field, its low bit at bit 12. -/
theorem test_serialize_hidden :
    answered (after .serialize { State.reset with flags := { Flags.reset with iopl := 1 } })
      = some (.ok, 0x9000, []) ∧
    answered (after .serialize { State.reset with flags := { Flags.reset with nt := true } })
      = some (.ok, 0xC000, []) := by decide

/-- 2.10: after deserialize(0xFFFF), write_if(0) gives 0xFDD5. -/
theorem test_directWrites :
    packed (after (.wrIf false) { State.reset with flags := allSet }) = 0xFDD5 ∧
    packed (after (.wrTf true) State.reset) = 0x8100 ∧ packed (after (.wrDf true) State.reset) = 0x8400 := by decide

/-! ## The MMU unit (95_test_vectors 2.11 to 2.14) -/

theorem test_translate_noWrap :
    answered (after (.translate 0 0xFFFF 0xFFFF) State.reset) = some (.ok, 0x10FFEF, []) ∧
    answered (after (.translate 0 0x0001 0xFFFF) State.reset) = some (.ok, 0x1000F, []) := by decide

/-- 2.11: handle 2 of two. -/
theorem test_translate_badHandle :
    latch (after (.translate 2 0 0) State.reset) = (1, 0x80, 0) ∧
    answered (after (.translate 2 0 0) State.reset) = some (.illegalCommand, 0, []) := by decide

theorem test_readByte_unwritten : answered (after (.readByte 0 0x1234 5) State.reset) = some (.ok, 0, []) := by
  decide

/-- 2.15: `L = CAP` faults, `L = CAP - 1` does not. -/
theorem test_readByte_edge :
    latch (after (.readByte 0 0xFFFF 0x0010) State.reset) = (2, 0x82, 0x100000) ∧
    latch (after (.readByte 0 0xFFFF 0x000F) State.reset) = (0, 0, 0) := by decide

/-- 2.12 rows 5 and 8: little-endian, through an aliasing pair and the other handle. -/
theorem test_readWord_alias :
    answered (after (.readWord 1 0x1000 0x2345) { State.reset with mem := [(0x12345, 0xCD), (0x12346, 0xAB)] })
      = some (.ok, 0xABCD, []) := by decide

theorem test_readWord_edge :
    latch (after (.readWord 0 0xFFFF 0x000F) State.reset) = (2, 0x83, 0xFFFFF) ∧
    answered (after (.readWord 0 0xFFFF 0x000F) State.reset) = some (.boundsFault, 0, []) := by decide

/-- 2.12 row 2: only `a[7:0]` is stored. -/
theorem test_writeByte : (after (.writeByte 0 0x1234 5 0x1FF) State.reset).mem = [(0x12345, 0xFF)] := by decide

/-- 2.12 row 12: a stored 0x00 reads like a byte never written. -/
theorem test_writeByte_zero :
    (after (.writeByte 0 0x1234 6 0) { State.reset with mem := [(0x12346, 0x78)] }).mem = [] := by decide

/-- 2.12 row 14: the high byte goes to linear 0x10000. -/
theorem test_writeWord_noSegmentWrap :
    (after (.writeWord 0 0 0xFFFF 0xBEEF) State.reset).mem = [(0xFFFF, 0xEF), (0x10000, 0xBE)] := by decide

/-- 2.15: no partial write. -/
theorem test_writeWord_edge :
    (after (.writeWord 0 0xFFFF 0x000F 0xABCD) State.reset).mem = [] ∧
    latch (after (.writeWord 0 0xFFFF 0x000F 0xABCD) State.reset) = (2, 0x85, 0xFFFFF) := by decide

/-- 2.13 row 3. -/
theorem test_readBlock :
    answered (after (.readBlock 1 0x0FFF 0x0011 3)
        { State.reset with mem := [(0x10000, 0xDE), (0x10001, 0xAD), (0x10002, 0xBE), (0x10003, 0xEF)] })
      = some (.ok, 0, [0xAD, 0xBE, 0xEF]) := by decide

/-- 2.13 row 10 and 2.15: length 0 at `CAP` is in range, above it is not; the sum does not wrap. -/
theorem test_readBlock_edge :
    answered (after (.readBlock 0 0xFFFF 0x0010 0) State.reset) = some (.ok, 0, []) ∧
    latch (after (.readBlock 0 0xFFFF 0x0011 0) State.reset) = (2, 0x86, 0x100001) ∧
    latch (after (.readBlock 0 0 1 0xFFFFFFFF) State.reset) = (2, 0x86, 1) := by decide

/-- 2.13 row 11: a block that ends exactly at `CAP`. -/
theorem test_writeBlock :
    (after (.writeBlock 0 0xFFFF 0x000C [1, 2, 3, 4]) State.reset).mem =
      [(0xFFFFC, 1), (0xFFFFD, 2), (0xFFFFE, 3), (0xFFFFF, 4)] := by decide

theorem test_writeBlock_edge :
    (after (.writeBlock 0 0xFFFF 0x000E [1, 2, 3]) State.reset).mem = [] ∧
    latch (after (.writeBlock 0 0xFFFF 0x000E [1, 2, 3]) State.reset) = (2, 0x88, 0xFFFFE) := by decide

/-- 2.14, the row with `CAP = 16`. -/
theorem test_snapshot :
    answered (after (.snapshot 0) { State.reset with mem := [(14, 0xCD), (15, 0xAB)], cfg := ⟨16, 2⟩ })
      = some (.ok, 0, [0, 0, 0, 0, 0, 0, 0, 0, 0, 0, 0, 0, 0, 0, 0xCD, 0xAB]) := by decide

theorem test_snapshot_badHandle : latch (after (.snapshot 2) State.reset) = (1, 0x8A, 0) := by decide

/-! ## The step (95_test_vectors 2.15, 2.16) -/

/-- A reserved operation code. -/
theorem test_step_reserved :
    latch (afterStep (given [0x87, 0, 0x10, 0, 0, 0, 0, 0, 0, 4, 0, 0, 0, 0, 0, 0, 0, 0])) = (1, 0x87, 0) := by decide

/-- `h` is ignored by the FLAGS unit. -/
theorem test_step_ignoredHandle :
    packed (afterStep (given [0x0C, 2, 0, 0, 0, 0, 0, 0, 1, 0, 0, 0, 0, 0, 0, 0, 0, 0])) = 0x8001 := by decide

/-- A halted CORE answers `HALTED` and records nothing, also for a reserved code. -/
theorem test_step_halted :
    answered (afterStep { stopped with host := [.command (bareCommand 0xFF)] }) = some (.halted, 0, []) ∧
    latch (afterStep { stopped with host := [.command (bareCommand 0xFF)] }) = (2, 0x83, 15) := by decide

/-- Reset ends the halted condition and clears the store; the parameters stay. -/
theorem test_step_reset :
    afterStep { stopped with host := [.reset] } = { State.reset with cfg := ⟨16, 2⟩ } := by decide

/-- A table word: bits 7 to 0 are `op`, as opcode_table.json numbers them. -/
theorem test_step_tableWord : packed (afterStep (State.reset.withFetchWord 8 0x13)) = 0x8100 := by decide

/-! ## Witnesses: for every statement with hypotheses, values that meet them all together -/

theorem stepTo (c : Command) (i : Instr) (s : State) (rest : List HostMove) (hh : s.host = .command c :: rest)
    (hd : decodeCommand c = .ok i) : step s = .next (after i { s with host := rest }) := by
  rw [step_command hh, runCommand_ok _ hd, exec_after]

/-- The sixteen-byte machine about to receive a command. -/
def offered (c : Command) (s : State) : State := { s with host := [.command c, .reset] }

theorem witness_OpcodeMapHasExactly28Values : decodeOp 0x83 = .ok (.readWord, true) := by decide

theorem witness_DecodeOfEncodeIsIdentity :
    (Instr.writeBlock 255 0xFFFF 0xFFFF [0xDE, 0x00]).wellFormed = true ∧
    (Instr.setOvfSub .w16 0xFFFFFFFF 2 1).wellFormed = true := by decide

theorem witness_UnconsumedFieldsHaveNoInfluence :
    let c : Command := ⟨0x88, 1, 0x1000, 0, 0x63, 1, 2, [0xAA]⟩
    let c' : Command := ⟨0x88, 1, 0x1000, 0, 0, 0, 0, [0xAA]⟩
    c ≠ c' ∧ c.op = c'.op ∧ decodeOp c.op = .ok (.writeBlock, false) ∧
    c.keepOnly Opcode.writeBlock.format.consumes = c'.keepOnly Opcode.writeBlock.format.consumes := by decide

theorem witness_EncodeOfDecodeIsCanonical :
    decodeCommand ⟨0x0D, 7, 1, 2, 0x10000, 3, 4, [5]⟩ = .ok (.setCarry .w16 0x10000) := by decide

theorem witness_MnemonicsAndNamesOneToOne :
    opcodeOfName "set_auxiliary_carry".toList = some .setAux := by decide

theorem witness_StepRunsTheDecodedInstruction :
    (offered (bareCommand 0x10) small).host = .command (bareCommand 0x10) :: [.reset] ∧
    decodeCommand (bareCommand 0x10) = .ok .serialize := by decide

theorem witness_StepRunsThePlacedTableWord :
    decodeTableWord 48 0x100001000083 = some (.readWord 0 0x0001 0x0010) ∧
    decodeTableWord 8 0x13 = some (.wrTf true) := by decide

theorem witness_ResetInputZeroesEverything : ({ stopped with host := [.reset] } : State).host = .reset :: [] := by
  decide

theorem witness_IdleStepChangesNothing : stopped.host = [] := by decide

theorem witness_EveryStepCompletes :
    (offered (bareCommand 0xFF) stopped).host = .command (bareCommand 0xFF) :: [.reset] := by decide

/-- A running state and a record of each operation code: for the statements about the evaluators, and on. -/
theorem witness_SetSignWritesTheSignBit :
    small.faultCode = 0 ∧ (bareCommand 0x00).op = 0x00 ∧ (bareCommand 0x01).op = 0x01 := by decide

theorem witness_SetParityTestsBitZero : small.faultCode = 0 ∧ (bareCommand 0x02).op = 0x02 := by decide

theorem witness_SetZeroTestsTheLowBits :
    small.faultCode = 0 ∧ (bareCommand 0x04).op = 0x04 ∧ (bareCommand 0x05).op = 0x05 := by decide

theorem witness_SetAuxIsBitFourExclusiveOr : small.faultCode = 0 ∧ (bareCommand 0x06).op = 0x06 := by decide

theorem witness_SetOvfAddBySignBits :
    small.faultCode = 0 ∧ (bareCommand 0x08).op = 0x08 ∧ (bareCommand 0x09).op = 0x09 := by decide

theorem witness_SetOvfSubBySignBits :
    small.faultCode = 0 ∧ (bareCommand 0x0A).op = 0x0A ∧ (bareCommand 0x0B).op = 0x0B := by decide

theorem witness_SetCarryReadsBitW :
    small.faultCode = 0 ∧ (bareCommand 0x0C).op = 0x0C ∧ (bareCommand 0x0D).op = 0x0D := by decide

theorem witness_SerializeAnswersThePackedWord : small.faultCode = 0 ∧ (bareCommand 0x10).op = 0x10 ∧ 16 ≤ 31 := by
  decide

theorem witness_DeserializeInstallsTwelveFields :
    small.faultCode = 0 ∧ (bareCommand 0x0E).op = 0x0E ∧ (Instr.wrTf true).opcode ≠ .deserialize ∧
    exec (.wrTf true) small = .next (after (.wrTf true) small) ∧
    (Instr.wrTf true).opcode ∉
      [Opcode.setSign, .setParity, .setZero, .setAux, .setOvfAdd, .setOvfSub, .setCarry] :=
  ⟨by decide, by decide, by decide, exec_after _ _, by decide⟩

theorem witness_PackAndUnpackInvert : allSet.ReservedClear ∧ small.flags.ReservedClear := by decide

theorem witness_DirectWritesOfControlFlags :
    small.faultCode = 0 ∧ (bareCommand 0x12).op = 0x12 ∧ (bareCommand 0x17).op = 0x17 := by decide

/-- Both a running and a halted state meet it. -/
theorem witness_FlagsUnitCommandsNeverFault :
    (Instr.setCarry .w8 0x100).unit = .flags ∧ Instr.setCarry .w8 0x100 ≠ .serialize ∧ small.faultCode = 0 ∧
    stopped.faultCode ≠ 0 ∧ exec (.setCarry .w8 0x100) small = .next (after (.setCarry .w8 0x100) small) :=
  ⟨by decide, by decide, by decide, by decide, exec_after _ _⟩

theorem witness_EvaluatorsWriteOneFlagFromOperands :
    small.faultCode = 0 ∧ State.reset.faultCode = 0 ∧
    exec (.setOvfSub .w8 0x7F 1 0x80) small = .next (after (.setOvfSub .w8 0x7F 1 0x80) small) ∧
    exec (.setOvfSub .w8 0x7F 1 0x80) State.reset = .next (after (.setOvfSub .w8 0x7F 1 0x80) State.reset) :=
  ⟨by decide, by decide, exec_after _ _, exec_after _ _⟩

/-- A step that changes a flag. -/
theorem witness_OnlyTheNamedWritersChangeAFlag :
    step (offered (bareCommand 0x15) small) = .next (after (.wrIf true) { small with host := [.reset] }) ∧
    (offered (bareCommand 0x15) small).host.head? ≠ some .reset ∧
    (after (.wrIf true) { small with host := [.reset] }).flags ≠ (offered (bareCommand 0x15) small).flags :=
  ⟨stepTo _ _ _ _ rfl (by decide), by decide, by decide⟩

theorem witness_NoFlagHasAnyEffect :
    Instr.readByte 0 0 3 ≠ .serialize ∧ (Instr.readByte 0 0 3).unit = .mmu ∧
    exec (.readByte 0 0 3) small = .next (after (.readByte 0 0 3) small) ∧
    exec (.readByte 0 0 3) { small with flags := allSet } =
      .next (after (.readByte 0 0 3) { small with flags := allSet }) :=
  ⟨by decide, by decide, exec_after _ _, exec_after _ _⟩

/-- Below and at `CAP`, with a valid and with an invalid handle. -/
theorem witness_TranslateIsExact :
    (bareCommand 0x80).op = 0x80 ∧ busyStore.faultCode = 0 ∧ 1 < busyStore.cfg.nHandles ∧
    busyStore.cfg.nHandles ≤ 2 := by decide

/-- The last byte and the last word of the store, and one past each; an invalid handle; a busy store. -/
theorem witness_ReadByteAndReadWordAnswerTheStore :
    small.faultCode = 0 ∧ 1 < small.cfg.nHandles ∧ small.busy = false ∧ lin 0 15 + 1 ≤ small.cfg.cap ∧
    lin 0 14 + 2 ≤ small.cfg.cap ∧ small.cfg.cap < lin 1 0 + 1 ∧ small.cfg.cap < lin 0 15 + 2 ∧
    small.cfg.nHandles ≤ 2 ∧ busyStore.faultCode = 0 ∧ 0 < busyStore.cfg.nHandles ∧ busyStore.busy = true := by
  decide

theorem witness_WriteByteAndWriteWordStore :
    small.faultCode = 0 ∧ 1 < small.cfg.nHandles ∧ small.busy = false ∧ small.mem.wf ∧
    lin 0 15 + 1 ≤ small.cfg.cap ∧ lin 0 14 + 2 ≤ small.cfg.cap ∧ small.cfg.cap < lin 1 0 + 1 ∧
    small.cfg.cap < lin 0 15 + 2 := by decide

/-- The whole store, the empty block at `CAP`, and one byte too many. -/
theorem witness_ReadBlockAndSnapshotAnswerTheStore :
    small.faultCode = 0 ∧ 1 < small.cfg.nHandles ∧ small.busy = false ∧
    lin 0 0 + (16 : Word).toNat ≤ small.cfg.cap ∧ 15 < (16 : Word).toNat ∧
    lin 1 0 + (0 : Word).toNat ≤ small.cfg.cap ∧ small.cfg.cap < lin 0 1 + (16 : Word).toNat ∧
    small.cfg.nHandles ≤ 2 ∧ busyStore.busy = true ∧ busyStore.faultCode = 0 := by decide

/-- A block that ends at `CAP`, the empty one there, an address on each side; and one byte too many. -/
theorem witness_WriteBlockStoresTheSequence :
    small.faultCode = 0 ∧ 1 < small.cfg.nHandles ∧ small.busy = false ∧ small.mem.wf ∧
    lin 0 14 + [0xAA#8, 0xBB#8].length ≤ small.cfg.cap ∧ 1 < [0xAA#8, 0xBB#8].length ∧
    lin 1 0 + ([] : List Byte).length ≤ small.cfg.cap ∧ 13 < lin 0 14 ∧
    lin 0 14 + [0xAA#8, 0xBB#8].length ≤ 16 ∧ small.cfg.cap < lin 0 15 + [0xAA#8, 0xBB#8].length := by decide

theorem witness_MmuCommandsFrame :
    (Instr.writeWord 0 0 14 0xABCD).unit = .mmu ∧ (Instr.snapshot 0).unit = .mmu ∧
    exec (.writeWord 0 0 14 0xABCD) small = .next (after (.writeWord 0 0 14 0xABCD) small) ∧
    answered (after (.writeWord 0 0 14 0xABCD) small) = some (.ok, 0, []) ∧ 16 ≠ lin 0 14 ∧ 16 ≠ lin 0 14 + 1 :=
  ⟨by decide, by decide, exec_after _ _, by decide, by decide, by decide⟩

theorem witness_OnlyWritesAndResetChangeTheStore :
    let c : Command := { bareCommand 0x84 with off := 7, a := 0x11 }
    step (offered c small) = .next (after (.writeByte 0 0 7 0x11) { small with host := [.reset] }) ∧
    (after (.writeByte 0 0 7 0x11) { small with host := [.reset] }).mem ≠ (offered c small).mem :=
  ⟨stepTo _ _ _ _ rfl (by decide), by decide⟩

theorem witness_ValidHandlesAreInterchangeable :
    (Instr.readBlock 0 0 3 1).handle = some 0 ∧ 0 < small.cfg.nHandles ∧ 1 < small.cfg.nHandles := by decide

/-- A reserved code, the first invalid handle, and the reference number of handles. -/
theorem witness_IllegalCommandCauses :
    (offered (bareCommand 0x18) small).host = .command (bareCommand 0x18) :: [.reset] ∧
    decodeCommand (bareCommand 0x18) = .error (.reserved 0x18 .function) ∧ small.faultCode = 0 ∧
    (Instr.snapshot 2).handle = some 2 ∧ small.cfg.nHandles ≤ 2 ∧ (1 ≤ 1 ∧ Config.reference.nHandles = 2 ^ 1) := by
  decide

/-- The reference handle field is one bit wide, so handle 1 is its largest value. -/
theorem witness_IllegalCommandCauses_field : 1 < 2 ^ Config.reference.handleBits := by
  simp [Config.handleBits, Config.reference]

theorem witness_ReentrantAccessWhileBusy :
    (Instr.snapshot 0).handle = some 0 ∧ 0 < busyStore.cfg.nHandles ∧ busyStore.faultCode = 0 ∧
    storeAccess busyStore.cfg.cap (.snapshot 0) = some (0, 16) ∧ busyStore.busy = true ∧
    storeAccess busyStore.cfg.cap (.readWord 0 1 0) = some (16, 2) := by decide

/-- The first byte out of range, and the command that meets it. -/
theorem witness_BoundsFaultOutOfRange :
    (Instr.readWord 1 0 15).handle = some 1 ∧ 1 < small.cfg.nHandles ∧ small.faultCode = 0 ∧ small.busy = false ∧
    storeAccess small.cfg.cap (.readWord 1 0 15) = some (15, 2) ∧ small.cfg.cap < 15 + 2 ∧
    exec (.readWord 1 0 15) small = .next (after (.readWord 1 0 15) small) ∧
    (after (.readWord 1 0 15) small).rsp = some ⟨.boundsFault, 0, []⟩ :=
  ⟨by decide, by decide, by decide, by decide, by decide, by decide, exec_after _ _, by decide⟩

theorem witness_HaltedRefusesEveryCommand :
    (offered (bareCommand 0x03) stopped).host = .command (bareCommand 0x03) :: [.reset] ∧
    (offered (bareCommand 0x03) stopped).faultCode ≠ 0 := by decide

/-- A command whose outcome is each of the five: the clauses meet at handle 2 and address 16. -/
theorem witness_OutcomePriority :
    let read (h : Nat) (off : Half) : Command := { bareCommand 0x82 with h := h, off := off }
    (offered (read 2 16) stopped).host = .command (read 2 16) :: [.reset] ∧
    (afterStep (offered (read 2 16) stopped)).rsp = some ⟨.halted, 0, []⟩ ∧
    (afterStep (offered (read 2 16) busyStore)).rsp = some ⟨.illegalCommand, 0, []⟩ ∧
    (afterStep (offered (read 1 16) busyStore)).rsp = some ⟨.reentrantAccess, 0, []⟩ ∧
    (afterStep (offered (read 1 16) small)).rsp = some ⟨.boundsFault, 0, []⟩ ∧
    (afterStep (offered (read 1 15) small)).rsp = some ⟨.ok, 0, []⟩ := by decide

theorem witness_FaultEntryRecordsTheCommand :
    let c : Command := { bareCommand 0x83 with off := 15 }
    (offered c small).host = .command c :: [.reset] ∧ (offered c small).faultCode = 0 ∧
    step (offered c small) = .next (after (.readWord 0 0 15) { small with host := [.reset] }) ∧
    (after (.readWord 0 0 15) { small with host := [.reset] }).rsp = some ⟨.boundsFault, 0, []⟩ :=
  ⟨rfl, by decide, stepTo _ _ _ _ rfl (by decide), by decide⟩

theorem witness_FaultsAreAllOrNothing :
    let c : Command := { bareCommand 0x85 with off := 15, a := 0xABCD }
    (offered c small).host = .command c :: [.reset] ∧
    step (offered c small) = .next (after (.writeWord 0 0 15 0xABCD) { small with host := [.reset] }) ∧
    (after (.writeWord 0 0 15 0xABCD) { small with host := [.reset] }).rsp = some ⟨.boundsFault, 0, []⟩ ∧
    Status.boundsFault ≠ .ok :=
  ⟨rfl, stepTo _ _ _ _ rfl (by decide), by decide, by decide⟩

/-- Three steps of a halted machine whose reset comes only after them. -/
theorem witness_HaltedUntilReset :
    stopped.faultCode ≠ 0 ∧
    HostMove.reset ∉ (List.take 2 [HostMove.command (bareCommand 0x04), .command (bareCommand 0x8A), .reset]) := by
  decide

/-- Aliasing pairs on both handles; the four clauses at the last byte and the last word. -/
theorem witness_ReadAfterWriteThroughAnyAlias :
    let s : State := { small with cfg := ⟨0x22, 2⟩ }
    s.faultCode = 0 ∧ s.busy = false ∧ s.mem.wf ∧ 0 < s.cfg.nHandles ∧ 1 < s.cfg.nHandles ∧
    lin 1 0x11 = lin 2 1 ∧ lin 1 0x11 + 1 ≤ s.cfg.cap ∧ lin 1 0x10 = lin 2 0 ∧ lin 1 0x10 + 2 ≤ s.cfg.cap ∧
    lin 1 0x10 + 1 = lin 2 1 := by decide

/-- The bytes in the other order, through another handle and another pair. -/
theorem witness_WriteBlockEqualsByteWritesInAnyOrder :
    let writes : List (Nat × Half × Half × Word) := [(1, 0, 15, 0x1BB), (0, 0, 14, 0xAA)]
    small.faultCode = 0 ∧ small.busy = false ∧ small.StoreSound ∧ 0 < small.cfg.nHandles ∧
    lin 0 14 + [0xAA#8, 0xBB#8].length ≤ small.cfg.cap ∧ (∀ x ∈ writes, x.1 < small.cfg.nHandles) ∧
    (writes.map fun x => (lin x.2.1 x.2.2.1, x.2.2.2.extractLsb' 0 8)).Perm
      ([0xAA#8, 0xBB#8].zipIdx.map fun x => (lin 0 14 + x.2, x.1)) := by decide

theorem witness_ReadBlockEqualsByteReads :
    small.busy = false ∧ 1 < small.cfg.nHandles ∧
    exec (.readBlock 0 0 3 2) small = .next (after (.readBlock 0 0 3 2) small) ∧
    (after (.readBlock 0 0 3 2) small).rsp = some ⟨.ok, 0, [0x5A, 0]⟩ ∧ 1 < (2 : Word).toNat ∧
    lin 0 4 = lin 0 3 + 1 ∧ lin 0 0 = 0 ∧ (16 : Word).toNat = small.cfg.cap ∧ small.faultCode = 0 :=
  ⟨by decide, by decide, exec_after _ _, by decide, by decide, by decide, by decide, by decide, by decide⟩

/-- Writes that overlap, none of which faults. -/
theorem witness_StoreHoldsTheLatestWrite :
    let cmds : List Instr := [.writeWord 0 0 14 0xABCD, .writeByte 1 0 15 0x11, .setParity 1]
    let s : State := { small with mem := [] }
    s.mem = [] ∧ (execAll cmds s).faultCode = 0 ∧ (execAll cmds s).mem = [(14, 0xCD), (15, 0x11)] := by decide

theorem witness_RunExecutesTheCommandsInOrder :
    let cmds : List Instr := [.wrDf true, .writeByte 1 0 15 0x11]
    ({ small with host := cmds.map fun i => .command i.toCommand } : State).host =
      cmds.map (fun i => .command i.toCommand) := by decide

theorem witness_AtMost4096PairsAlias :
    let pairs : List (Half × Half) := [(0x1000, 0x0010), (0x1001, 0x0000), (0x0FFF, 0x0020)]
    pairs.Nodup ∧ ∀ p ∈ pairs, lin p.1 p.2 = 0x10010 :=
  ⟨by decide, by simp [lin]⟩

theorem witness_SetAuxIsNibbleCarryOrBorrow : small.faultCode = 0 ∧ 1 ≤ 1 := by decide

/-- The largest operands of each width, with a carry in, the result masked or not. -/
theorem witness_SetOvfAddIsSignedOverflow :
    small.faultCode = 0 ∧ 1 ≤ 1 ∧ (0xFF : Word).toNat < 2 ^ 8 ∧
    (0x1FF : Word).toNat % 2 ^ 8 = ((0xFF : Word).toNat + (0xFF : Word).toNat + 1) % 2 ^ 8 ∧
    (0xFFFF : Word).toNat < 2 ^ 16 ∧
    (0xFFFF : Word).toNat % 2 ^ 16 = ((0xFFFF : Word).toNat + (0xFFFF : Word).toNat + 1) % 2 ^ 16 := by decide

theorem witness_SetOvfSubIsSignedOverflowOfOperand2MinusOperand1 : small.faultCode = 0 := by decide

theorem witness_SetCarryIsCarryOrBorrow :
    small.faultCode = 0 ∧ 0xFF < 2 ^ widthBits .w8 ∧ 0xFFFF < 2 ^ widthBits .w16 ∧ 1 ≤ 1 := by decide

theorem witness_SetParityAgainstTextbook : small.faultCode = 0 := by decide

theorem witness_ForcingRecipes : small.faultCode = 0 := by decide

/-- P3 of 95_test_vectors: the slot 0x2000:0xFFFE and the pair 0x2FFF:0x000E. -/
theorem witness_FlagsWordThroughTheStoreRestores :
    State.reset.faultCode = 0 ∧ State.reset.busy = false ∧ State.reset.flags.ReservedClear ∧ allSet.ReservedClear ∧
    State.reset.mem.wf ∧ 0 < State.reset.cfg.nHandles ∧ 1 < State.reset.cfg.nHandles ∧
    lin 0x2000 0xFFFE + 2 ≤ State.reset.cfg.cap ∧ lin 0x2000 0xFFFE = lin 0x2FFF 0x000E :=
  ⟨by decide, by decide, by decide, by decide, by decide, by decide, by decide, by decide, by decide⟩

theorem small_inv : small.Inv where
  admissible := by decide
  store := by decide
  reserved := by decide
  idle := by decide
  latch := by decide
  response := by intro r hr; cases hr
  notReentrant := by intro r hr; cases hr

/-- A state that meets the invariant, and a step from it that faults. -/
theorem witness_StepKeepsTheInvariant :
    let c : Command := { bareCommand 0x83 with off := 15 }
    (offered c small).Inv ∧
    step (offered c small) = .next (after (.readWord 0 0 15) { small with host := [.reset] }) :=
  ⟨⟨small_inv.admissible, small_inv.store, small_inv.reserved, small_inv.idle, small_inv.latch, small_inv.response,
      small_inv.notReentrant⟩,
    stepTo _ _ _ _ rfl (by decide)⟩

theorem witness_NoRunMeetsReentrantAccess : Config.reference.Admissible ∧ (⟨1, 1⟩ : Config).Admissible := by decide

end Sys2Proof.Tests
end

/-!
PROOFS of the family 10_state: the halted condition, the invariant, the packed word, who writes FLAGS and the
store, and the handles. The shared facts come first: runs of the machine, what a completed command leaves, and
what a step other than a reset does to FLAGS and the store.
-/

namespace Sys2Proof.Machine

/-! ## Decoding and runs -/

/-- A record whose `op` decodes is the instruction its fields make (30_encoding R88, R90). -/
theorem decodeCommand_of_decodeOp {c : Command} {o : Opcode} {v : Bool} (h : decodeOp c.op = .ok (o, v)) :
    decodeCommand c = .ok (assemble o v c) := by
  simp [decodeCommand, h]

theorem run_succ_of_step {s t : State} (n : Nat) (h : step s = .next t) :
    Host.Core.run core (n + 1) s = Host.Core.run core n t := by
  have hcore : core.step s = .next t := h
  simp only [Host.Core.run, hcore]

/-! ## A completed command, field by field -/

@[simp] theorem completed_flags (i : Instr) (s : State) : (completed i s).flags = flagsAfter i s.flags := rfl
@[simp] theorem completed_mem (i : Instr) (s : State) : (completed i s).mem = memAfter i s.mem := rfl
@[simp] theorem completed_rsp (i : Instr) (s : State) : (completed i s).rsp = some (answer i s) := rfl

theorem answer_status (i : Instr) (s : State) : (answer i s).status = .ok := by cases i <;> rfl

/-- No command writes a reserved field (10_state R24). -/
theorem flagsAfter_reserved (i : Instr) (f : Flags) :
    (flagsAfter i f).res1 = f.res1 ∧ (flagsAfter i f).res3 = f.res3 ∧ (flagsAfter i f).res5 = f.res5 ∧
    (flagsAfter i f).res15 = f.res15 := by
  cases i <;> exact ⟨rfl, rfl, rfl, rfl⟩

/-- An MMU command leaves FLAGS (20_memory R57). -/
theorem flagsAfter_of_handle {i : Instr} {h : Nat} (hi : i.handle = some h) (f : Flags) : flagsAfter i f = f := by
  cases i <;> cases hi <;> rfl

/-- A command that stores something is one of the three writes (10_state R32). -/
theorem opcode_of_memAfter_ne {i : Instr} {m : Memory} (h : memAfter i m ≠ m) :
    i.opcode = .writeByte ∨ i.opcode = .writeWord ∨ i.opcode = .writeBlock := by
  cases i with
  | writeByte => exact .inl rfl
  | writeWord => exact .inr (.inl rfl)
  | writeBlock => exact .inr (.inr rfl)
  | _ => exact absurd rfl h

/-- A step that is no reset keeps FLAGS and the store, or completes the host's command. -/
theorem step_keeps_or_completes {s t : State} (h : step s = .next t) (hr : s.host.head? ≠ some .reset) :
    t.flags = s.flags ∧ t.mem = s.mem ∨
    ∃ c rest i, s.host = .command c :: rest ∧ decodeCommand c = .ok i ∧ t = completed i { s with host := rest } := by
  rcases step_cases h with
    ⟨-, rfl⟩ | ⟨rest, hh, -⟩ | ⟨c, rest, i, hh, hd, he⟩ | ⟨c, rest, e, -, -, he⟩
  · exact .inl ⟨rfl, rfl⟩
  · simp [hh] at hr
  · rcases exec_cases he with ⟨-, rfl⟩ | ⟨f, info, -, -, rfl⟩ | ⟨-, -, rfl⟩
    · exact .inl ⟨rfl, rfl⟩
    · exact .inl ⟨rfl, rfl⟩
    · exact .inr ⟨c, rest, i, hh, hd, rfl⟩
  · rcases execReserved_next he with ⟨-, rfl⟩ | ⟨-, rfl⟩ <;> exact .inl ⟨rfl, rfl⟩

/-! ## The halted condition -/

/-- A halted CORE refuses every command, legal or reserved (60_exceptions R190). -/
theorem runCommand_halted (c : Command) {s : State} (hs : s.faultCode ≠ 0) : runCommand c s = .next s.refuse := by
  cases hd : decodeCommand c with
  | ok i => rw [runCommand_ok s hd, exec_halted hs]
  | error e => rw [runCommand_error s hd, execReserved, unlessHalted_halted _ hs]

/-- Without a reset, a step of a halted CORE uses up one move and changes nothing but the response. -/
theorem step_halted {s : State} (hs : s.faultCode ≠ 0) (hr : s.host.head? ≠ some .reset) :
    ∃ r, step s = .next { s with host := s.host.tail, rsp := r } := by
  match hh : s.host with
  | [] => exact ⟨s.rsp, by rw [step_idle hh, List.tail_nil, ← hh]⟩
  | .reset :: rest => simp [hh] at hr
  | .command c :: rest =>
    exact ⟨some ⟨.halted, 0, []⟩, by rw [step_command hh, runCommand_halted c (s := { s with host := rest }) hs]; rfl⟩

theorem reset_not_mem_take_succ (n : Nat) (moves : List HostMove) :
    HostMove.reset ∉ moves.take (n + 1) ↔ moves.head? ≠ some .reset ∧ HostMove.reset ∉ moves.tail.take n := by
  cases moves <;> simp [eq_comm]

/-- Over a run without a reset a halted CORE changes nothing but the response (60_exceptions R191). -/
theorem run_halted (n : Nat) {s : State} (hs : s.faultCode ≠ 0) (hr : HostMove.reset ∉ s.host.take n) :
    ∃ r, Host.Core.run core n s = .next { s with host := s.host.drop n, rsp := r } := by
  induction n generalizing s with
  | zero => exact ⟨s.rsp, rfl⟩
  | succ n ih =>
    obtain ⟨hhead, htail⟩ := (reset_not_mem_take_succ n s.host).mp hr
    obtain ⟨r, hstep⟩ := step_halted hs hhead
    obtain ⟨r', hrun⟩ := ih (s := { s with host := s.host.tail, rsp := r }) hs htail
    exact ⟨r', by rw [run_succ_of_step n hstep, hrun, List.drop_tail]⟩

/-- Settles O44: a run of a halted CORE changes the response and the host's moves only. -/
theorem haltedUntilReset : Obligations.HaltedUntilReset := by
  intro n s hs hr
  obtain ⟨r, hrun⟩ := run_halted n hs hr
  exact ⟨_, hrun, rfl, rfl, rfl, rfl, rfl, rfl⟩

/-! ## The invariant -/

/-- The invariant does not speak of the host's moves. -/
theorem State.Inv.withHost {s : State} (h : s.Inv) (rest : List HostMove) : ({ s with host := rest } : State).Inv :=
  ⟨h.admissible, h.store, h.reserved, h.idle, h.latch, h.response, h.notReentrant⟩

/-- Reset establishes the invariant, whatever the state was (70_reset_and_hazards R210, R213). -/
theorem applyReset_inv {s : State} (h : s.cfg.Admissible) : (applyReset s).Inv where
  admissible := h
  store := ⟨⟨.nil, by simp⟩, by simp⟩
  reserved := ⟨rfl, rfl, rfl, rfl⟩
  idle := rfl
  latch := .inl ⟨rfl, rfl, rfl⟩
  response := by simp [State.ResponseSound]
  notReentrant := by simp [State.ResponseNotReentrant]

theorem State.Inv.refuse {s : State} (h : s.Inv) : s.refuse.Inv where
  admissible := h.admissible
  store := h.store
  reserved := h.reserved
  idle := h.idle
  latch := h.latch
  response := by simp [State.ResponseSound]
  notReentrant := by simp [State.ResponseNotReentrant]

/-- A fault keeps the invariant when what it latches is possible and it is not `ReentrantAccess`. -/
theorem State.Inv.raise {s : State} {f : Fault} {op : Byte} {info : Nat} (h : s.Inv)
    (hf : f ≠ .reentrantAccess) (hl : (s.raise f op info).LatchSound) : (s.raise f op info).Inv where
  admissible := h.admissible
  store := h.store
  reserved := h.reserved
  idle := h.idle
  latch := hl
  response := by simp [State.ResponseSound]
  notReentrant := by cases f <;> simp_all [State.ResponseNotReentrant, Fault.status]

theorem State.Inv.completed {i : Instr} {s : State} (h : s.Inv) (hr : raises i s = none) : (completed i s).Inv where
  admissible := h.admissible
  store := storeSound_memAfter h.store hr
  reserved := by simpa [Flags.ReservedClear, flagsAfter_reserved] using h.reserved
  idle := h.idle
  latch := h.latch
  response := by simp [State.ResponseSound, answer_status]
  notReentrant := by simp [State.ResponseNotReentrant, answer_status]

/-- The highest linear address (20_memory R53). -/
theorem lin_le (seg off : Half) : lin seg off ≤ 0x10FFEF := by
  have := seg.isLt
  have := off.isLt
  unfold lin
  omega

/-- An access that leaves the store is one of six commands, SNAPSHOT not among them, and begins at an address
translation can produce (60_exceptions R181, R193). -/
theorem outOfRange_access {i : Instr} {cap base n : Nat} (ha : storeAccess cap i = some (base, n))
    (hc : cap < base + n) : i.op ∈ boundsFaultOps ∧ base ≤ 0x10FFEF := by
  cases i <;> cases ha
  case snapshot => omega
  all_goals
    refine ⟨?_, lin_le _ _⟩
    simp only [Instr.op, Instr.opcode, Instr.subBit]
    decide

/-- With `BUSY = 0` a command raises one of the two faults the latch can hold, and not `ReentrantAccess`. -/
theorem raise_latchSound {i : Instr} {s : State} {f : Fault} {info : Nat} (hb : s.busy = false)
    (hr : raises i s = some (f, info)) : f ≠ .reentrantAccess ∧ (s.raise f i.op info).LatchSound := by
  obtain ⟨h, -, ⟨rfl, rfl, -⟩ | ⟨n, ha, -, ⟨-, hbusy⟩ | ⟨rfl, -, hc⟩⟩⟩ := raises_some hr
  · exact ⟨by decide, .inr (.inl ⟨rfl, rfl⟩)⟩
  · simp [hb] at hbusy
  · exact ⟨by decide, .inr (.inr ⟨rfl, outOfRange_access ha hc⟩)⟩

theorem exec_keeps_inv {i : Instr} {s t : State} (h : s.Inv) (he : exec i s = .next t) : t.Inv := by
  rcases exec_cases he with ⟨-, rfl⟩ | ⟨f, info, -, hr, rfl⟩ | ⟨-, hr, rfl⟩
  · exact h.refuse
  · obtain ⟨hf, hl⟩ := raise_latchSound h.idle hr
    exact h.raise hf hl
  · exact h.completed hr

theorem execReserved_keeps_inv {op : Byte} {s t : State} (h : s.Inv) (he : execReserved op s = .next t) : t.Inv := by
  rcases execReserved_next he with ⟨-, rfl⟩ | ⟨-, rfl⟩
  · exact h.refuse
  · exact h.raise (by decide) (.inr (.inl ⟨rfl, rfl⟩))

/-- Settles O59, case by case over what a step can be. -/
theorem stepKeepsTheInvariant : Obligations.StepKeepsTheInvariant := by
  intro s t h hstep
  rcases step_cases hstep with
    ⟨-, rfl⟩ | ⟨rest, -, rfl⟩ | ⟨c, rest, i, -, -, he⟩ | ⟨c, rest, e, -, -, he⟩
  · exact h
  · exact applyReset_inv h.admissible
  · exact exec_keeps_inv (h.withHost rest) he
  · exact execReserved_keeps_inv (h.withHost rest) he

/-- Settles O58: the state after reset is what the reset input makes of it. -/
theorem resetMeetsTheInvariant : Obligations.ResetMeetsTheInvariant :=
  applyReset_inv (s := State.reset) (by decide)

/-! ## The packed word -/

/-- The zero extension of a 16-bit result keeps its bits (30_encoding R89). -/
theorem getLsbD_halfResult (v : Half) (k : Nat) : (halfResult v).getLsbD k = v.getLsbD k := by
  rw [halfResult, BitVec.getLsbD_setWidth, Bool.and_eq_right_iff_imp]
  intro hk
  have := BitVec.lt_of_getLsbD hk
  exact decide_eq_true (by omega)

/-- Settles O21: SERIALIZE completes with the packed word, whose bits `getLsbD_pack` gives. -/
theorem serializeAnswersThePackedWord : Obligations.SerializeAnswersThePackedWord := by
  refine ⟨fun c hc => decodeCommand_of_decodeOp (o := .serialize) (v := false) (by rw [hc]; decide), fun s hs => ?_⟩
  refine ⟨halfResult (pack s.flags), exec_flags hs rfl, ?_⟩
  simp only [getLsbD_halfResult]
  have hhigh : ∀ k, 16 ≤ k → (pack s.flags).getLsbD k = false := fun k hk => BitVec.getLsbD_of_ge _ _ hk
  simpa only [getLsbD_pack, true_and] using hhigh

/-- `IOPL` stands at bits 13:12 of the packed word (10_state R22, R28). -/
theorem extractLsb'_pack_iopl (f : Flags) : (pack f).extractLsb' 12 2 = f.iopl := by
  refine BitVec.eq_of_getLsbD_eq fun k hk => ?_
  rw [BitVec.getLsbD_extractLsb', getLsbD_pack]
  interval_cases k <;> simp

/-- Unpack of Pack gives the twelve variable fields back over any register (10_state R23). -/
theorem unpack_pack (f g : Flags) :
    unpack (pack f) g = { f with res1 := g.res1, res3 := g.res3, res5 := g.res5, res15 := g.res15 } := by
  simp only [unpack, getLsbD_pack, extractLsb'_pack_iopl]

/-- Pack of Unpack keeps the twelve variable bits and fixes the other four (10_state R23). -/
theorem pack_unpack (p : Half) (g : Flags) : pack (unpack p g) = (p &&& 0x7FD5) ||| 0x8000 := by
  refine BitVec.eq_of_getLsbD_eq fun k hk => ?_
  rw [getLsbD_pack, BitVec.getLsbD_or, BitVec.getLsbD_and]
  interval_cases k <;> simp [unpack]

/-- Settles O23: the two laws; that Unpack leaves the reserved fields is its definition. -/
theorem packAndUnpackInvert : Obligations.PackAndUnpackInvert := by
  refine ⟨fun f g hf hg => ?_, pack_unpack, fun p g hg => hg, fun p g => rfl⟩
  obtain ⟨hf1, hf3, hf5, hf15⟩ := hf
  obtain ⟨hg1, hg3, hg5, hg15⟩ := hg
  rw [unpack_pack, hg1.trans hf1.symm, hg3.trans hf3.symm, hg5.trans hf5.symm, hg15.trans hf15.symm]

/-! ## Who writes a flag -/

/-- The flags a command may change, each by its own command only (10_state R26 to R29); a DESERIALIZE may
change them all. -/
theorem flagsAfter_writers (i : Instr) (f : Flags) :
    i.opcode = .deserialize ∨
      ((flagsAfter i f).iopl = f.iopl ∧ (flagsAfter i f).nt = f.nt ∧
        ((flagsAfter i f).cf ≠ f.cf → i.opcode = .setCarry) ∧
        ((flagsAfter i f).pf ≠ f.pf → i.opcode = .setParity) ∧
        ((flagsAfter i f).af ≠ f.af → i.opcode = .setAux) ∧
        ((flagsAfter i f).zf ≠ f.zf → i.opcode = .setZero) ∧
        ((flagsAfter i f).sf ≠ f.sf → i.opcode = .setSign) ∧
        ((flagsAfter i f).of_ ≠ f.of_ → i.opcode = .setOvfAdd ∨ i.opcode = .setOvfSub) ∧
        ((flagsAfter i f).tf ≠ f.tf → i.opcode = .wrTf) ∧
        ((flagsAfter i f).if_ ≠ f.if_ → i.opcode = .wrIf) ∧
        ((flagsAfter i f).df ≠ f.df → i.opcode = .wrDf)) := by
  cases i with
  | deserialize a => exact .inl rfl
  | _ => exact .inr (by simp [flagsAfter, Instr.opcode])

/-- Settles O27: a step that is no reset keeps FLAGS, or completes a command, which writes its own flag. -/
theorem onlyTheNamedWritersChangeAFlag : Obligations.OnlyTheNamedWritersChangeAFlag := by
  intro s t hstep hr
  rcases step_keeps_or_completes hstep hr with ⟨hf, -⟩ | ⟨c, rest, i, hh, hd, rfl⟩
  · exact ⟨by simp [hf], fun hne => absurd hf hne⟩
  · exact ⟨flagsAfter_reserved i s.flags, fun _ => ⟨c, rest, i, hh, hd, flagsAfter_writers i s.flags⟩⟩

/-! ## No flag has any effect -/

/-- Whether a command faults does not depend on FLAGS. -/
theorem raises_withFlags (i : Instr) (s : State) (f : Flags) : raises i { s with flags := f } = raises i s := rfl

/-- Only SERIALIZE reads FLAGS (10_state R36). -/
theorem answer_withFlags {i : Instr} (hi : i ≠ .serialize) (s : State) (f : Flags) :
    answer i { s with flags := f } = answer i s := by
  cases i with
  | serialize => exact absurd rfl hi
  | _ => rfl

/-- Whatever FLAGS holds, a command other than SERIALIZE does the same to everything else; FLAGS it keeps in all
cases, or writes in all. -/
theorem exec_withFlags {i : Instr} (hi : i ≠ .serialize) (s : State) :
    ∃ (u : State) (g : Flags → Flags), (g = id ∨ g = flagsAfter i) ∧
      ∀ f, exec i { s with flags := f } = .next { u with flags := g f } := by
  by_cases hs : s.faultCode = 0
  · cases hr : raises i s with
    | none =>
      refine ⟨completed i s, flagsAfter i, .inr rfl, fun f => ?_⟩
      have hc : completed i { s with flags := f } = { completed i s with flags := flagsAfter i f } := by
        rw [completed, answer_withFlags hi]
        rfl
      rw [← hc]
      exact exec_completes hs ((raises_withFlags i s f).trans hr)
    | some p => exact ⟨s.raise p.1 i.op p.2, id, .inl rfl, fun f => exec_raises hs ((raises_withFlags i s f).trans hr)⟩
  · exact ⟨s.refuse, id, .inl rfl, fun f => exec_halted hs⟩

/-- A part of FLAGS that a map of the register either keeps or gives a value of its own. -/
def KeptOrSet {α : Type} (field : Flags → α) (act : Flags → Flags) : Prop :=
  ∀ f g, field (act f) = field f ∧ field (act g) = field g ∨ field (act f) = field (act g)

/-- An evaluator or a direct write sets one field from its operands and keeps the others, a DESERIALIZE sets all
eleven, every other command keeps them (10_state R36). -/
theorem keptOrSet_flagsAfter (i : Instr) :
    KeptOrSet (·.cf) (flagsAfter i) ∧ KeptOrSet (·.pf) (flagsAfter i) ∧ KeptOrSet (·.af) (flagsAfter i) ∧
    KeptOrSet (·.zf) (flagsAfter i) ∧ KeptOrSet (·.sf) (flagsAfter i) ∧ KeptOrSet (·.tf) (flagsAfter i) ∧
    KeptOrSet (·.if_) (flagsAfter i) ∧ KeptOrSet (·.df) (flagsAfter i) ∧ KeptOrSet (·.of_) (flagsAfter i) ∧
    KeptOrSet (·.iopl) (flagsAfter i) ∧ KeptOrSet (·.nt) (flagsAfter i) := by
  cases i <;> simp [KeptOrSet, flagsAfter, unpack]

/-- Settles O28: both runs are the same state but for FLAGS, on which the same map acts. -/
theorem noFlagHasAnyEffect : Obligations.NoFlagHasAnyEffect := by
  intro i s t t' f hi ht ht'
  obtain ⟨u, g, hg, hexec⟩ := exec_withFlags hi s
  obtain rfl : { u with flags := g s.flags } = t := Host.Outcome.next.inj ((hexec s.flags).symm.trans ht)
  obtain rfl : { u with flags := g f } = t' := Host.Outcome.next.inj ((hexec f).symm.trans ht')
  refine ⟨rfl, fun hu => ?_, ?_⟩
  · obtain ⟨h, hh⟩ := (unit_mmu_iff i).mp hu
    rcases hg with rfl | rfl
    · exact ⟨rfl, rfl⟩
    · exact ⟨flagsAfter_of_handle hh _, flagsAfter_of_handle hh _⟩
  · rcases hg with rfl | rfl
    · simp
    · obtain ⟨cf, pf, af, zf, sf, tf, if_, df, of_, iopl, nt⟩ := keptOrSet_flagsAfter i
      exact ⟨cf _ _, pf _ _, af _ _, zf _ _, sf _ _, tf _ _, if_ _ _, df _ _, of_ _ _, iopl _ _, nt _ _⟩

/-! ## The store and the handles -/

/-- Settles O35: a step that is no reset keeps the store, or completes a command, and only a write stores. -/
theorem onlyWritesAndResetChangeTheStore : Obligations.OnlyWritesAndResetChangeTheStore := by
  intro s t hstep hne
  by_cases hr : s.host.head? = some .reset
  · exact .inl (List.head?_eq_some_iff.mp hr)
  · rcases step_keeps_or_completes hstep hr with ⟨-, hm⟩ | ⟨c, rest, i, hh, hd, rfl⟩
    · exact absurd hm hne
    · exact .inr ⟨c, rest, i, hh, hd, opcode_of_memAfter_ne hne⟩

theorem handle_reHandle {i : Instr} {h : Nat} (hi : i.handle = some h) (h' : Nat) :
    (reHandle h' i).handle = some h' := by
  cases i <;> cases hi <;> rfl

theorem op_reHandle (h' : Nat) (i : Instr) : (reHandle h' i).op = i.op := by cases i <;> rfl

theorem storeAccess_reHandle (cap h' : Nat) (i : Instr) : storeAccess cap (reHandle h' i) = storeAccess cap i := by
  cases i <;> rfl

/-- What a command completes with does not mention its handle (20_memory R63). -/
theorem completed_reHandle (h' : Nat) (i : Instr) (s : State) : completed (reHandle h' i) s = completed i s := by
  cases i <;> rfl

/-- The handle check is the only use of the handle, and valid handles pass it alike. -/
theorem raises_reHandle {i : Instr} {s : State} {h h' : Nat} (hi : i.handle = some h) (hh : h < s.cfg.nHandles)
    (hh' : h' < s.cfg.nHandles) : raises (reHandle h' i) s = raises i s := by
  simp only [raises, hi, handle_reHandle hi, storeAccess_reHandle, if_neg (Nat.not_le.mpr hh),
    if_neg (Nat.not_le.mpr hh')]

/-- Settles O36: both commands raise the same fault or complete the same way. -/
theorem validHandlesAreInterchangeable : Obligations.ValidHandlesAreInterchangeable := by
  intro i s h h' hi hh hh'
  rw [exec_eq, exec_eq, raises_reHandle hi hh hh', completed_reHandle, op_reHandle]

/-! ## The values after reset -/

/-- Settles O11: the values of 10_state R39, and the outputs field by field. -/
theorem resetValues : Obligations.ResetValues := by
  refine ⟨rfl, ?packed, fun _ => rfl, rfl, rfl, rfl, rfl, rfl, fun s => ?outputs⟩
  case packed => decide
  case outputs => exact ⟨rfl, rfl, rfl, rfl, rfl, rfl, rfl, rfl, rfl, rfl, rfl, rfl⟩

end Sys2Proof.Machine

/-!
PROOFS of the family 20_memory: one step and a list of commands, the translation and how many pairs it takes to
one address, the reads and the writes, and what the store holds after a list of commands. The fact the store's
statements turn on is `read_memAfter`: an address reads what the command stored there, or what it read before.
-/

namespace Sys2Proof.Machine

/-! ## One step -/

/-- Settles O8: the next move is the command, and it decodes to the instruction. -/
theorem stepRunsTheDecodedInstruction : Obligations.StepRunsTheDecodedInstruction := by
  intro s c rest i hhost hdecode
  rw [step_command hhost, runCommand_ok _ hdecode]

/-! ## Running the host's commands -/

/-- No response depends on the host's further moves. -/
theorem answer_withHost (i : Instr) (s : State) (moves : List HostMove) :
    answer i { s with host := moves } = answer i s := by
  cases i <;> rfl

theorem completed_withHost (i : Instr) (s : State) (moves : List HostMove) :
    completed i { s with host := moves } = { completed i s with host := moves } := by
  simp only [completed, answer_withHost]

/-- A command neither reads the host's further moves nor writes them. -/
theorem exec_withHost {i : Instr} {s t : State} (h : exec i s = .next t) (moves : List HostMove) :
    exec i { s with host := moves } = .next { t with host := moves } := by
  have hraises : raises i { s with host := moves } = raises i s := rfl
  rcases exec_cases h with ⟨hs, rfl⟩ | ⟨f, info, hs, hr, rfl⟩ | ⟨hs, hr, rfl⟩
  · exact exec_halted hs
  · exact exec_raises hs (hraises.trans hr)
  · rw [← completed_withHost]
    exact exec_completes hs (hraises.trans hr)

/-- The first command of a list, then the rest from the state it leaves. -/
theorem execAll_cons {i : Instr} {s t : State} (rest : List Instr) (h : exec i s = .next t) :
    execAll (i :: rest) s = execAll rest t := by
  simp only [execAll, h]

/-- Settles O49, by induction on the commands: each step takes one record, which decodes to its instruction. -/
theorem runExecutesTheCommandsInOrder : Obligations.RunExecutesTheCommandsInOrder := by
  intro cmds
  induction cmds with
  | nil =>
    intro s hhost
    have hidle : { s with host := [] } = s := by rw [← show s.host = [] from hhost]
    rw [hidle]
    rfl
  | cons i rest ih =>
    intro s hhost
    obtain ⟨t, ht⟩ := exec_next i s
    have hstep := (stepRunsTheDecodedInstruction s _ _ i hhost (decodeCommand_toCommand i)).trans (exec_withHost ht _)
    rw [List.length_cons, run_succ_of_step _ hstep, ih _ rfl, execAll_cons rest (exec_withHost ht [])]

/-! ## Translation -/

/-- Translation fits the result bus (41_mmu_ops R151). -/
theorem toNat_linearResult_lin (seg off : Half) : (linearResult (lin seg off)).toNat = lin seg off := by
  have := lin_le seg off
  rw [linearResult, BitVec.toNat_ofNat, Nat.mod_eq_of_lt (by omega)]

/-- The handle check, for every MMU command (60_exceptions R183). -/
theorem exec_invalidHandle {i : Instr} {s : State} {h : Nat} (hs : s.faultCode = 0) (hi : i.handle = some h)
    (hn : s.cfg.nHandles ≤ h) : exec i s = .next (s.raise .illegalCommand i.op 0) :=
  exec_raises hs (by simp [raises, hi, hn])

/-- Settles O29: TRANSLATE makes no store access, so the handle check is the only one it can fail. -/
theorem translateIsExact : Obligations.TranslateIsExact := by
  refine ⟨fun c hc => decodeCommand_of_decodeOp (o := .translate) (v := false) (by rw [hc]; decide),
    fun s h seg off hs => ⟨fun hh => ?valid, fun hh => ?invalid⟩⟩
  case valid =>
    exact ⟨_, exec_completes hs (raises_of_noAccess rfl hh rfl), toNat_linearResult_lin seg off⟩
  case invalid =>
    have hop : (Instr.translate h seg off).op = 0x80 := op_of_handle rfl
    rw [exec_invalidHandle hs rfl hh, hop]
    rfl

/-- Two pairs that name one linear address and whose offsets have the same paragraph are the same pair. -/
theorem eq_of_lin_eq_of_offset_div_eq {p q : Half × Half} (hlin : lin p.1 p.2 = lin q.1 q.2)
    (hdiv : p.2.toNat / 16 = q.2.toNat / 16) : p = q := by
  unfold lin at hlin
  exact Prod.ext (BitVec.eq_of_toNat_eq (by omega)) (BitVec.eq_of_toNat_eq (by omega))

/-- Settles O50: among pairs that name one address the paragraph of the offset, one of 4096, tells them apart. -/
theorem atMost4096PairsAlias : Obligations.AtMost4096PairsAlias := by
  intro l pairs hnodup hlin
  rw [← List.toFinset_card_of_nodup hnodup, ← Finset.card_range 4096]
  refine Finset.card_le_card_of_injOn (fun p => p.2.toNat / 16) (fun p _ => ?paragraph) fun p hp q hq hdiv => ?apart
  case paragraph =>
    have := p.2.isLt
    simp only [Finset.coe_range, Set.mem_Iio]
    omega
  case apart =>
    rw [Finset.mem_coe, List.mem_toFinset] at hp hq
    exact eq_of_lin_eq_of_offset_div_eq ((hlin p hp).trans (hlin q hq).symm) hdiv

/-! ## Reads -/

theorem toNat_byteResult (b : Byte) : (byteResult b).toNat = b.toNat :=
  BitVec.toNat_setWidth_of_le (by decide)

theorem toNat_halfResult (v : Half) : (halfResult v).toNat = v.toNat :=
  BitVec.toNat_setWidth_of_le (by decide)

/-- A word is little-endian: its high byte is the one at the next linear address (20_memory R56, R59). -/
theorem Memory.toNat_readHalf (m : Memory) (addr : Nat) :
    (m.readHalf addr).toNat = (m.read addr).toNat + 256 * (m.read (addr + 1)).toNat := by
  rw [Memory.readHalf, BitVec.toNat_append, ← Nat.shiftLeft_add_eq_or_of_lt (m.read addr).isLt, Nat.shiftLeft_eq]
  omega

/-- Settles O30: an access in range completes, and `toNat_readHalf` reads its word. -/
theorem readByteAndReadWordAnswerTheStore : Obligations.ReadByteAndReadWordAnswerTheStore := by
  refine ⟨fun c => ⟨fun hc => ?decodesByte, fun hc => ?decodesWord⟩,
    fun s h seg off hs hh hb => ⟨fun hr => ?byte, fun hr => ?word⟩,
    fun s h seg off => ⟨accessFaults rfl rfl, accessFaults rfl rfl⟩⟩
  case decodesByte => exact decodeCommand_of_decodeOp (o := .readByte) (v := false) (by rw [hc]; decide)
  case decodesWord => exact decodeCommand_of_decodeOp (o := .readWord) (v := true) (by rw [hc]; decide)
  case byte => exact ⟨_, exec_inRange hs rfl hh hb rfl hr, toNat_byteResult _⟩
  case word =>
    exact ⟨_, exec_inRange hs rfl hh hb rfl hr, (toNat_halfResult _).trans (s.mem.toNat_readHalf _)⟩

/-! ## Writes -/

/-- After a command that completes, an address reads the byte the command stored there, or what it read before
(20_memory R57, R58). -/
theorem read_memAfter {m : Memory} (hm : m.wf) (i : Instr) (addr : Nat) :
    (memAfter i m).read addr = (storedByte i addr).getD (m.read addr) := by
  cases i with
  | writeByte h seg off a =>
    simp only [memAfter, Memory.writeByte, storedByte, Memory.read_write hm]
    split <;> rfl
  | writeWord h seg off a =>
    simp only [memAfter, Memory.writeHalf, storedByte, Memory.read_write (Memory.wf_write hm _ _),
      Memory.read_write hm]
    by_cases hlow : addr = lin seg off
    · simp [hlow]
    · by_cases hhigh : addr = lin seg off + 1 <;> simp [hlow, hhigh]
  | writeBlock h seg off data => exact Memory.read_writeBlock hm _ _ _
  | _ => rfl

/-- Settles O31: what every byte reads afterwards is `read_memAfter`. -/
theorem writeByteAndWriteWordStore : Obligations.WriteByteAndWriteWordStore := by
  refine ⟨fun c => ⟨fun hc => ?decodesByte, fun hc => ?decodesWord⟩,
    fun s h seg off a hs hh hb hm => ⟨fun hr => ?byte, fun hr => ?word⟩,
    fun s h seg off a => ⟨accessFaults rfl rfl, accessFaults rfl rfl⟩⟩
  case decodesByte => exact decodeCommand_of_decodeOp (o := .writeByte) (v := false) (by rw [hc]; decide)
  case decodesWord => exact decodeCommand_of_decodeOp (o := .writeWord) (v := true) (by rw [hc]; decide)
  case byte =>
    refine ⟨_, exec_inRange hs rfl hh hb rfl hr, fun addr => (read_memAfter hm _ addr).trans ?_⟩
    simp only [storedByte]
    split <;> rfl
  case word =>
    refine ⟨_, exec_inRange hs rfl hh hb rfl hr, fun addr => (read_memAfter hm _ addr).trans ?_⟩
    simp only [storedByte]
    split_ifs <;> rfl

/-! ## The store after a list of commands -/

/-- A command that completes keeps the canonical form, wherever it stores. -/
theorem wf_memAfter {m : Memory} (hm : m.wf) (i : Instr) : (memAfter i m).wf := by
  cases i with
  | writeByte => exact Memory.wf_write hm _ _
  | writeWord => exact Memory.wf_write (Memory.wf_write hm _ _) _ _
  | writeBlock => exact Memory.wf_writeBlock hm _ _
  | _ => exact hm

/-- Every command keeps the canonical form, whatever its outcome. -/
theorem exec_keeps_wf {i : Instr} {s t : State} (h : exec i s = .next t) (hm : s.mem.wf) : t.mem.wf := by
  rcases exec_cases h with ⟨-, rfl⟩ | ⟨f, info, -, -, rfl⟩ | ⟨-, -, rfl⟩
  · exact hm
  · exact hm
  · exact wf_memAfter hm i

theorem Fault.code_ne_zero (f : Fault) : f.code ≠ 0 := by cases f <;> decide

/-- A command that leaves CORE running met it running and completed. -/
theorem completed_of_faultCode_eq_zero {i : Instr} {s t : State} (h : exec i s = .next t) (ht : t.faultCode = 0) :
    s.faultCode = 0 ∧ t = completed i s := by
  rcases exec_cases h with ⟨hs, rfl⟩ | ⟨f, info, -, -, rfl⟩ | ⟨hs, -, rfl⟩
  · exact absurd ht hs
  · exact absurd ht f.code_ne_zero
  · exact ⟨hs, rfl⟩

/-- The last command of a list is executed in the state the others leave. -/
theorem exec_execAll (cmds : List Instr) (i : Instr) (s : State) :
    exec i (execAll cmds s) = .next (execAll (cmds ++ [i]) s) := by
  induction cmds generalizing s with
  | nil =>
    obtain ⟨t, ht⟩ := exec_next i s
    rw [List.nil_append, execAll_cons [] ht]
    exact ht
  | cons j rest ih =>
    obtain ⟨t, ht⟩ := exec_next j s
    rw [List.cons_append, execAll_cons rest ht, execAll_cons (rest ++ [i]) ht, ih]

theorem wf_execAll (cmds : List Instr) {s : State} (hm : s.mem.wf) : (execAll cmds s).mem.wf := by
  induction cmds using List.reverseRecOn with
  | nil => exact hm
  | append_singleton earlier i ih => exact exec_keeps_wf (exec_execAll earlier i s) ih

/-- Settles O48, by induction on the commands with the latest taken off: it completed, and its store is the
latest write to the addresses it covers. -/
theorem storeHoldsTheLatestWrite : Obligations.StoreHoldsTheLatestWrite := by
  intro cmds s hempty
  have hwf : s.mem.wf := hempty ▸ ⟨.nil, by simp⟩
  induction cmds using List.reverseRecOn with
  | nil => intro _ addr; simp [execAll, hempty, latestWrite]
  | append_singleton earlier i ih =>
    intro hok addr
    obtain ⟨hearlier, hlast⟩ := completed_of_faultCode_eq_zero (exec_execAll earlier i s) hok
    rw [hlast, completed_mem, read_memAfter (wf_execAll earlier hwf), ih hearlier, List.reverse_concat]
    rfl

end Sys2Proof.Machine

/-!
PROOFS of the family 30_encoding: the opcode map row by row, the record and the image of an instruction, the fields
a format consumes, a table word, and the written text piece by piece. What decodes is taken apart by `decodeOp_ok`,
`decodeCommand_ok` and `decode_ok`.
-/

namespace Sys2Proof

/-! ## The opcode map -/

/-- An `op` that decodes is selected by a row of the opcode map, whose mnemonic it names (30_encoding R88). -/
theorem decodeOp_ok {op : Byte} {o : Opcode} {v : Bool} (h : decodeOp op = .ok (o, v)) :
    ∃ row ∈ opTable, row.selects op = true ∧ row.opcode = o ∧ op.getLsbD 0 = v := by
  cases hfind : opTable.find? (fun row => row.selects op) with
  | some row =>
    simp only [decodeOp, hfind, Except.ok.injEq, Prod.mk.injEq] at h
    exact ⟨row, List.mem_of_find?_eq_some hfind,
      List.find?_some (p := fun row : OpRow => row.selects op) hfind, h⟩
  | none => simp [decodeOp, hfind] at h

theorem OpRow.selects_iff (row : OpRow) (op : Byte) : row.selects op = true ↔ op &&& row.mask = row.pattern :=
  beq_iff_eq

/-- A bit of `op` that a selecting row's mask keeps is the row's own (30_encoding R88). -/
theorem OpRow.getLsbD_of_selects {row : OpRow} {op : Byte} {k : Nat} (h : row.selects op = true)
    (hmask : row.mask.getLsbD k = true) : op.getLsbD k = row.pattern.getLsbD k := by
  rw [← (row.selects_iff op).mp h, BitVec.getLsbD_and, hmask, Bool.and_true]

/-- Every row fixes the unit bit and `Z`; its `Z` is `00`, and its unit bit says whether its format consumes a
handle (30_encoding R85, R88). -/
theorem opTable_unit_and_z : ∀ row ∈ opTable,
    (∀ k ∈ [5, 6, 7], row.mask.getLsbD k = true) ∧ row.pattern.getLsbD 5 = false ∧
    row.pattern.getLsbD 6 = false ∧
    (row.pattern.getLsbD 7 = true ↔ Field.h ∈ row.opcode.format.consumes) := by
  decide

/-- Two rows of the map differ in a bit that both their masks keep. -/
theorem opTable_rows_differ :
    opTable.Pairwise fun row row' => row.pattern &&& row'.mask ≠ row'.pattern &&& row.mask := by
  decide

/-- Rows that select the same value agree on the bits both their masks keep. -/
theorem OpRow.agree_of_selects {row row' : OpRow} {op : Byte} (h : row.selects op = true)
    (h' : row'.selects op = true) : row.pattern &&& row'.mask = row'.pattern &&& row.mask := by
  rw [OpRow.selects_iff] at h h'
  rw [← h, ← h', BitVec.and_assoc, BitVec.and_assoc, BitVec.and_comm row.mask]

/-- A list whose members, in order, stand in a relation that no two of them can be in has one member at most. -/
theorem length_le_one_of_pairwise {α : Type} {R : α → α → Prop} {l : List α} (h : l.Pairwise R)
    (hnot : ∀ x ∈ l, ∀ y ∈ l, ¬ R x y) : l.length ≤ 1 := by
  match l with
  | [] | [_] => simp
  | x :: y :: rest => exact absurd (List.rel_of_pairwise_cons h (by simp)) (hnot x (by simp) y (by simp))

/-- No two rows of the map select the same value (30_encoding R88). -/
theorem length_rows_selecting_le_one (op : Byte) : (opTable.filter fun row => row.selects op).length ≤ 1 :=
  length_le_one_of_pairwise (opTable_rows_differ.filter _) fun _ hrow _ hrow' hdiffer =>
    hdiffer (OpRow.agree_of_selects (List.mem_filter.mp hrow).2 (List.mem_filter.mp hrow').2)

/-- The values of `op` a row selects: its pattern, and the next one where the mask leaves `S` out. -/
def OpRow.values (row : OpRow) : List Byte :=
  if row.mask = 0xFF then [row.pattern] else [row.pattern, row.pattern ||| 1]

theorem opTable_masks : ∀ row ∈ opTable, row.mask = 0xFF ∨ row.mask = 0xFE := by decide

theorem selects_of_mem_values {row : OpRow} (hrow : row ∈ opTable) {op : Byte} (h : op ∈ row.values) :
    row.selects op = true := by
  have hall : ∀ row ∈ opTable, row.values.all row.selects = true := by decide
  exact List.all_eq_true.mp (hall row hrow) op h

/-- A byte is its upper seven bits, with bit 0 clear or set. -/
theorem eq_upper_bits_or (op : Byte) : op = op &&& 0xFE ∨ op = op &&& 0xFE ||| 1 := by
  revert op; decide

theorem mem_values_of_selects {row : OpRow} (hrow : row ∈ opTable) {op : Byte} (h : row.selects op = true) :
    op ∈ row.values := by
  rw [OpRow.selects_iff] at h
  rcases opTable_masks row hrow with hm | hm
  · have hall : op &&& 0xFF = op := BitVec.and_allOnes
    rw [OpRow.values, if_pos hm, ← h, hm, hall, List.mem_singleton]
  · rw [OpRow.values, if_neg (by rw [hm]; decide), ← h, hm, List.mem_pair]
    exact eq_upper_bits_or op

/-- The decoder names a command exactly on the values the rows of the map select (30_encoding R92). -/
theorem exists_decodeOp_ok_iff (op : Byte) : (∃ x, decodeOp op = .ok x) ↔ op ∈ opTable.flatMap OpRow.values := by
  rw [List.mem_flatMap]
  constructor
  · rintro ⟨⟨o, v⟩, h⟩
    obtain ⟨row, hrow, hsel, -, -⟩ := decodeOp_ok h
    exact ⟨row, hrow, mem_values_of_selects hrow hsel⟩
  · rintro ⟨row, hrow, hmem⟩
    have hsome : (opTable.find? fun row => row.selects op).isSome :=
      List.find?_isSome.mpr ⟨row, hrow, selects_of_mem_values hrow hmem⟩
    obtain ⟨found, hfound⟩ := Option.isSome_iff_exists.mp hsome
    exact ⟨(found.opcode, op.getLsbD 0), by simp only [decodeOp, hfound]⟩

/-- Settles O2: the values the rows select are the 28 listed ones, and the unit bit and `Z` are fixed by each row. -/
theorem opcodeMapHasExactly28Values : Obligations.OpcodeMapHasExactly28Values := by
  refine fun op => ⟨exists_decodeOp_ok_iff op, length_rows_selecting_le_one op, fun o v h => ?_⟩
  obtain ⟨row, hrow, hsel, rfl, hbit⟩ := decodeOp_ok h
  obtain ⟨hmask, hz5, hz6, hunit⟩ := opTable_unit_and_z row hrow
  have hkeeps : ∀ k ∈ [5, 6, 7], op.getLsbD k = row.pattern.getLsbD k := fun k hk =>
    OpRow.getLsbD_of_selects hsel (hmask k hk)
  refine ⟨BitVec.eq_of_getLsbD_eq fun k hk => ?_, hbit.symm, by rw [hkeeps 7 (by simp), hunit]⟩
  match k, hk with
  | 0, _ => simpa using (hkeeps 5 (by simp)).trans hz5
  | 1, _ => simpa using (hkeeps 6 (by simp)).trans hz6

end Sys2Proof

namespace Sys2Proof.Machine

/-! ## Records and images -/

/-- A record that decodes has an `op` that decodes, and is what its fields make (30_encoding R88, R90). -/
theorem decodeCommand_ok {c : Command} {i : Instr} (h : decodeCommand c = .ok i) :
    ∃ o v, decodeOp c.op = .ok (o, v) ∧ i = assemble o v c := by
  cases hop : decodeOp c.op with
  | ok x =>
    rw [decodeCommand_of_decodeOp hop] at h
    cases h
    exact ⟨x.1, x.2, rfl, rfl⟩
  | error why => simp [decodeCommand, hop] at h

/-- Bytes that decode are the image of a record that decodes (30_encoding R99). -/
theorem decode_ok {bytes : List Byte} {i : Instr} (h : decode bytes = .ok i) :
    ∃ c, commandOfImage bytes = some c ∧ decodeCommand c = .ok i := by
  cases himage : commandOfImage bytes with
  | some c => exact ⟨c, rfl, by simpa [decode, himage] using h⟩
  | none => simp [decode, himage] at h

/-- An instruction is well formed exactly when the eight bits of `h8` hold its handle (30_encoding R99). -/
theorem wellFormed_iff (i : Instr) : i.wellFormed = true ↔ i.handle.getD 0 < 256 := by
  cases i <;> simp [Instr.wellFormed, Instr.handle, handleFits]

/-- Settles O3: the image reads back as its record, and the record decodes to the instruction. -/
theorem decodeOfEncodeIsIdentity : Obligations.DecodeOfEncodeIsIdentity := by
  intro i hwf
  have hfits : i.toCommand.h < 256 := toCommand_h i ▸ (wellFormed_iff i).mp hwf
  rw [decode, encode, commandOfImage_imageOfCommand _ hfits]
  exact decodeCommand_toCommand i

/-- Settles O1, by running the decoder on the six images. -/
theorem specImagesDecode : Obligations.SpecImagesDecode := ⟨rfl, rfl, rfl, rfl, rfl, rfl⟩

/-! ## The fields a format consumes -/

/-- The fields a format does not consume do not enter the instruction (30_encoding R90). -/
theorem assemble_keepOnly (o : Opcode) (v : Bool) (c : Command) :
    assemble o v (c.keepOnly o.format.consumes) = assemble o v c := by
  cases o <;> rfl

/-- The record of what a mnemonic and a record make is that record's consumed fields (30_encoding R99). -/
theorem toCommand_assemble (o : Opcode) (v : Bool) (c : Command) :
    (assemble o v c).toCommand = { c.keepOnly o.format.consumes with op := (assemble o v c).op } := by
  cases o <;> rfl

theorem opcode_assemble (o : Opcode) (v : Bool) (c : Command) : (assemble o v c).opcode = o := by
  cases o <;> rfl

/-- Settles O5: what `c` decodes to has the `op` of `c`, and its record has the consumed fields of `c`. -/
theorem encodeOfDecodeIsCanonical : Obligations.EncodeOfDecodeIsCanonical := by
  intro c i hdecode
  have hop := op_of_decodeCommand hdecode
  obtain ⟨o, v, -, rfl⟩ := decodeCommand_ok hdecode
  rw [opcode_assemble, toCommand_assemble, hop]
  rfl

/-- Settles O4: both records assemble the instruction of their common consumed fields; and an instruction's record
decodes to it, so it is canonical. -/
theorem unconsumedFieldsHaveNoInfluence : Obligations.UnconsumedFieldsHaveNoInfluence := by
  refine ⟨fun c c' o v hop hdecode hkeep => ?_, fun i =>
    (encodeOfDecodeIsCanonical _ i (decodeCommand_toCommand i)).symm⟩
  have hsame : assemble o v c = assemble o v c' := by rw [← assemble_keepOnly, hkeep, assemble_keepOnly]
  have hc := decodeCommand_of_decodeOp hdecode
  have hc' : decodeCommand c' = .ok (assemble o v c) := hsame ▸ decodeCommand_of_decodeOp (hop ▸ hdecode)
  exact ⟨hc.trans hc'.symm, fun s => (runCommand_ok s hc).trans (runCommand_ok s hc').symm⟩

/-! ## A table word -/

/-- The record placed for a table word is the one its image decodes from. -/
theorem decodeCommand_commandOfTableWord {nbits w : Nat} {i : Instr} (h : decodeTableWord nbits w = some i) :
    decodeCommand (commandOfTableWord nbits w) = .ok i := by
  have hdecode : decode (imageOfTableWord nbits w) = .ok i := by
    cases hd : decode (imageOfTableWord nbits w) <;> simp_all [decodeTableWord, Except.toOption]
  obtain ⟨c, himage, hc⟩ := decode_ok hdecode
  rwa [commandOfTableWord, himage, Option.getD_some]

/-- Settles O9: the record placed is the host's next move, and it decodes to the instruction. -/
theorem stepRunsThePlacedTableWord : Obligations.StepRunsThePlacedTableWord := fun s _ _ i h =>
  stepRunsTheDecodedInstruction (s.withFetchWord _ _) _ s.host i rfl (decodeCommand_commandOfTableWord h)

/-! ## Names -/

/-- Settles O7: the table gives each mnemonic its own name, and what a name is found as has that name in its row. -/
theorem mnemonicsAndNamesOneToOne : Obligations.MnemonicsAndNamesOneToOne := by
  refine ⟨fun o => by cases o <;> decide, fun o name h => ?_, by decide, by decide⟩
  have hrows : ∀ row ∈ commandNames, row.2.2.toList = textName row.1 := by decide
  obtain ⟨row, hfind, rfl⟩ := Option.map_eq_some_iff.mp h
  have hname : row.2.2.toList = name := by simpa using List.find?_some hfind
  exact hname.symm.trans (hrows row (List.mem_of_find?_eq_some hfind))

/-- A name has no space, opening parenthesis or dot (30_encoding R96). -/
theorem textName_plain (o : Opcode) : ' ' ∉ textName o ∧ '(' ∉ textName o ∧ '.' ∉ textName o := by
  cases o <;> decide

/-- A name does not begin as a handle does (30_encoding R95, R96). -/
theorem textName_head?_ne (o : Opcode) : (textName o).head? ≠ some 'h' := by
  cases o <;> decide

theorem textName_ne_nil (o : Opcode) : textName o ≠ [] := by
  cases o <;> decide

/-! ## Arguments -/

/-- An argument as it is written: it stands whole between separators and is not empty (30_encoding R95). -/
structure Argument (xs : List Char) : Prop extends Plain xs where
  nonempty : xs ≠ []

/-- The characters `writeHex`, `writeHalf` and `writeDecimal` write. -/
def IsNumeral (c : Char) : Prop := c = 'x' ∨ ∃ d < 16, c = digitChar d

theorem IsNumeral.not_separator {c : Char} (h : IsNumeral c) : c ∉ [' ', ',', '(', '.'] := by
  rcases h with rfl | ⟨d, hd, rfl⟩
  · decide
  · revert d; decide

theorem argument_of_numerals {xs : List Char} (h : ∀ c ∈ xs, IsNumeral c) (hne : xs ≠ []) : Argument xs := by
  have hnot : ∀ c ∈ [' ', ',', '(', '.'], c ∉ xs := fun c hc hmem => (h c hmem).not_separator hc
  exact
    { comma := hnot ',' (by simp)
      parens := hnot '(' (by simp)
      dot := hnot '.' (by simp)
      first := fun hs => hnot ' ' (by simp) (List.mem_of_head? hs)
      last := fun hs => hnot ' ' (by simp) (List.mem_of_getLast? hs)
      nonempty := hne }

/-- A number after `0x`. -/
theorem argument_hex {xs : List Char} (h : ∀ c ∈ xs, ∃ d < 16, c = digitChar d) : Argument ('0' :: 'x' :: xs) := by
  refine argument_of_numerals (fun c hc => ?_) (by simp)
  rcases List.mem_cons.mp hc with rfl | hc
  · exact .inr ⟨0, by decide, rfl⟩
  · exact (List.mem_cons.mp hc).imp_right (h c)

theorem argument_writeValue (v : Word) : Argument (writeValue v) :=
  argument_hex (digitsBefore_plain (by decide) (by decide) _ _)

theorem argument_writeHalf (v : Half) : Argument (writeHalf v) := argument_hex (hexDigits_plain _ _)

theorem argument_writeDecimal (n : Nat) : Argument (writeDecimal n) :=
  argument_of_numerals (fun c hc => .inr (digitsBefore_plain (by decide) (by decide) _ _ c hc))
    (digitsBefore_ne_nil _ _ _)

/-- A width is written in decimal. -/
theorem argument_writeWidth : ∀ w : Width, Argument (writeWidth w)
  | .w8 => argument_writeDecimal 8
  | .w16 => argument_writeDecimal 16

/-- A flag value is written in decimal. -/
theorem argument_writeFlag : ∀ v : Bool, Argument (writeFlag v)
  | false => argument_writeDecimal 0
  | true => argument_writeDecimal 1

/-- A character of a joined text is in the separator or in a part. -/
theorem mem_intercalate {c : Char} {sep : List Char} {parts : List (List Char)}
    (h : c ∈ List.intercalate sep parts) : c ∈ sep ∨ ∃ w ∈ parts, c ∈ w := by
  induction parts with
  | nil => simp at h
  | cons w parts ih =>
    cases parts with
    | nil => exact .inr ⟨w, by simp, by simpa using h⟩
    | cons v parts =>
      rw [List.intercalate_cons_cons, List.mem_append, List.mem_append] at h
      rcases h with (h | h) | h
      · exact .inr ⟨w, by simp, h⟩
      · exact .inl h
      · exact (ih h).imp_right fun ⟨x, hx, hc⟩ => ⟨x, by simp [hx], hc⟩

theorem intercalate_ne_nil {sep w : List Char} (h : w ≠ []) (parts : List (List Char)) :
    List.intercalate sep (w :: parts) ≠ [] := by
  cases parts <;> simp [h]

/-- A byte sequence is an argument: only spaces stand between its digits, and brackets around them. -/
theorem argument_writeByteList (data : List Byte) : Argument (writeByteList data) := by
  have hnot : ∀ c ∈ [',', '(', '.'], c ∉ writeByteList data := by
    intro c hc hmem
    have hsplit : c = '[' ∨ c ∈ List.intercalate [' '] (data.map writeByteHex) ∨ c = ']' := by
      simpa [writeByteList] using hmem
    rcases hsplit with rfl | hmem | rfl
    · revert hc; decide
    · rcases mem_intercalate hmem with hsp | ⟨w, hw, hcw⟩
      · obtain rfl := List.mem_singleton.mp hsp
        revert hc; decide
      · obtain ⟨b, -, rfl⟩ := List.mem_map.mp hw
        exact IsNumeral.not_separator (.inr (hexDigits_plain _ _ c hcw)) (List.mem_cons_of_mem _ hc)
    · revert hc; decide
  exact
    { comma := hnot ',' (by simp)
      parens := hnot '(' (by simp)
      dot := hnot '.' (by simp)
      first := by simp [writeByteList]
      last := by simp [writeByteList, List.getLast?_cons]
      nonempty := by simp [writeByteList] }

/-- Everything written between the parentheses of a call is an argument (30_encoding R95). -/
theorem argument_textArguments (i : Instr) : ∀ x ∈ textArguments i, Argument x := by
  cases i <;>
    simp [textArguments, argument_writeWidth, argument_writeFlag, argument_writeHalf, argument_writeValue,
      argument_writeDecimal, argument_writeByteList]

/-! ## Between the parentheses -/

/-- A text that can stand between the parentheses of a call: the reader cuts it nowhere and trims nothing. -/
structure Body (xs : List Char) : Prop where
  parens : '(' ∉ xs
  dot : '.' ∉ xs
  first : xs.head? ≠ some ' '
  last : xs.getLast? ≠ some ' '

theorem body_join {args : List (List Char)} (h : ∀ x ∈ args, Argument x) :
    Body (List.intercalate [',', ' '] args) := by
  induction args with
  | nil => constructor <;> simp
  | cons w args ih =>
    have hw := h w (by simp)
    cases args with
    | nil => simpa using Body.mk hw.parens hw.dot hw.first hw.last
    | cons v args =>
      have hrest := ih fun x hx => h x (by simp [hx])
      have hne := intercalate_ne_nil (sep := [',', ' ']) (h v (by simp)).nonempty args
      rw [List.intercalate_cons_cons]
      exact
        { parens := by simp [hw.parens, hrest.parens]
          dot := by simp [hw.dot, hrest.dot]
          first := by
            rw [List.append_assoc, List.head?_append_of_ne_nil _ hw.nonempty]
            exact hw.first
          last := by
            rw [List.getLast?_append_of_ne_nil _ hne]
            exact hrest.last }

/-- The reader finds the arguments the writer joined, none in an empty text. -/
theorem readArguments_join {args : List (List Char)} (h : ∀ x ∈ args, Argument x) :
    (if List.intercalate [',', ' '] args = [] then []
      else (cutAt ',' (List.intercalate [',', ' '] args)).map trimSpaces) = args := by
  cases args with
  | nil => simp
  | cons w args =>
    rw [if_neg (intercalate_ne_nil (h w (by simp)).nonempty args), cutAt_arguments fun x hx => (h x hx).toPlain]

/-- Each argument reads back, so the call's parts make the instruction again. -/
theorem commandOfCall_textArguments (i : Instr) : commandOfCall i.opcode i.handle (textArguments i) = some i := by
  cases i <;>
    simp [commandOfCall, textArguments, Instr.opcode, Instr.handle, readWidth_writeWidth, readFlag_writeFlag,
      readBits_writeHalf, readBits_writeValue, readBits_writeDecimal, readByteList_writeByteList]

/-! ## The line -/

/-- A written handle, or none, is read off the head of a call that has no dot and begins with no `h`. -/
theorem readHandle_writeHandle (h : Option Nat) {call : List Char} (hdot : '.' ∉ call)
    (hhead : call.head? ≠ some 'h') : readHandle (writeHandle h ++ call) = (h, call) := by
  cases h with
  | none =>
    rw [writeHandle, List.nil_append, readHandle]
    intro d rest hcall
    exact absurd (by simp [hcall]) hhead
  | some n =>
    have hread : readDigits 10 (writeDecimal n) 0 = some n :=
      readDigits_digitsBefore (by decide) (by decide) (Nat.lt_succ_self n)
    have hcut : cutAt '.' (writeDecimal n ++ '.' :: call) = [writeDecimal n, call] := by
      rw [cutAt_append (argument_writeDecimal n).dot, cutAt_plain hdot]
    have hline : writeHandle (some n) ++ call = 'h' :: (writeDecimal n ++ '.' :: call) := by simp [writeHandle]
    obtain ⟨d, rest, hdigits⟩ := List.exists_cons_of_ne_nil (argument_writeDecimal n).nonempty
    rw [hdigits] at hread hcut
    rw [hline, hdigits]
    simp only [List.cons_append] at hcut ⊢
    simp [readHandle, hcut, hread]

/-- A written line begins and ends with no space. -/
theorem trimSpaces_line (o : Opcode) (h : Option Nat) (body : List Char) :
    trimSpaces (writeHandle h ++ (textName o ++ '(' :: (body ++ [')']))) =
      writeHandle h ++ (textName o ++ '(' :: (body ++ [')'])) := by
  refine trimSpaces_eq ?_ (by simp [List.getLast?_append, List.getLast?_cons])
  cases h with
  | none =>
    rw [writeHandle, List.nil_append, List.head?_append_of_ne_nil _ (textName_ne_nil o)]
    exact fun hs => (textName_plain o).1 (List.mem_of_head? hs)
  | some n => simp [writeHandle]

/-- A line is read as the call it is written from: handle, name and arguments (30_encoding R95). -/
theorem readText_call {o : Opcode} {h : Option Nat} {args : List (List Char)} (hargs : ∀ x ∈ args, Argument x) :
    readText (writeHandle h ++ textName o ++ ('(' :: (List.intercalate [',', ' '] args ++ [')']))) =
      commandOfCall o h args := by
  have hbody := body_join hargs
  have hfound := mnemonicsAndNamesOneToOne.1 o
  have hread := readArguments_join hargs
  generalize List.intercalate [',', ' '] args = body at hbody hread ⊢
  obtain ⟨-, hparens, hdot⟩ := textName_plain o
  have hhandle : readHandle (writeHandle h ++ (textName o ++ '(' :: (body ++ [')']))) =
      (h, textName o ++ '(' :: (body ++ [')'])) := by
    apply readHandle_writeHandle
    · simp [hdot, hbody.dot]
    · rw [List.head?_append_of_ne_nil _ (textName_ne_nil o)]
      exact textName_head?_ne o
  have hcut : cutAt '(' (textName o ++ '(' :: (body ++ [')'])) = [textName o, body ++ [')']] := by
    rw [cutAt_append hparens, cutAt_plain (by simp [hbody.parens])]
  rw [List.append_assoc, readText, trimSpaces_line, hhandle]
  simp [hcut, hfound, trimSpaces_eq hbody.first hbody.last, hread]

/-- Settles O6: the line is read as its call, and the call's arguments read back. -/
theorem readTextOfWriteTextIsIdentity : Obligations.ReadTextOfWriteTextIsIdentity := fun i =>
  (readText_call (argument_textArguments i)).trans (commandOfCall_textArguments i)

end Sys2Proof.Machine

/-!
PROOFS of the family 40_flags_ops: what each FLAGS-unit command answers when CORE runs, one lemma per command, then
the frame of the unit, and what AF, OF, CF and PF mean in arithmetic: AF by the carry of a library addition, OF by the
operands' signed readings, CF by the bit of a natural number, PF by counting bits.
-/

namespace Sys2Proof.Machine

/-! ## What the evaluators and the direct writes do when CORE is not halted -/

/-- A record's `op` alone chooses what its fields are assembled into (30_encoding R88). -/
theorem decodeCommand_of_op {c : Command} {op : Byte} {o : Opcode} {v : Bool} (hc : c.op = op)
    (h : decodeOp op = .ok (o, v)) : decodeCommand c = .ok (assemble o v c) :=
  decodeCommand_of_decodeOp (hc ▸ h)

section Running

variable {s : State} (hs : s.faultCode = 0)

include hs

theorem exec_setSign (w : Width) (a : Word) :
    exec (.setSign w a) s =
      .next { s with flags := { s.flags with sf := a.getLsbD (widthBits w - 1) }, rsp := some ⟨.ok, 0, []⟩ } := by
  rw [← evalSign_eq]
  exact exec_flags hs rfl

theorem exec_setParity (a : Word) :
    exec (.setParity a) s =
      .next { s with flags := { s.flags with pf := decide (a.toNat % 2 = 0) }, rsp := some ⟨.ok, 0, []⟩ } := by
  rw [← evalParity_eq]
  exact exec_flags hs rfl

theorem exec_setZero (w : Width) (a : Word) :
    exec (.setZero w a) s =
      .next { s with
        flags := { s.flags with zf := decide (a.toNat % 2 ^ widthBits w = 0) }, rsp := some ⟨.ok, 0, []⟩ } := by
  rw [← evalZero_eq]
  exact exec_flags hs rfl

theorem exec_setAux (a b c : Word) :
    exec (.setAux a b c) s =
      .next { s with
        flags := { s.flags with af := a.getLsbD 4 ^^ b.getLsbD 4 ^^ c.getLsbD 4 }, rsp := some ⟨.ok, 0, []⟩ } := by
  rw [← evalAux_eq]
  exact exec_flags hs rfl

theorem exec_setOvfAdd (w : Width) (a b c : Word) :
    exec (.setOvfAdd w a b c) s =
      .next { s with
        flags := { s.flags with
          of_ := (a.getLsbD (widthBits w - 1) ^^ b.getLsbD (widthBits w - 1)) &&
            (a.getLsbD (widthBits w - 1) ^^ c.getLsbD (widthBits w - 1)) }
        rsp := some ⟨.ok, 0, []⟩ } := by
  rw [← evalOvfAdd_eq]
  exact exec_flags hs rfl

theorem exec_setOvfSub (w : Width) (a b c : Word) :
    exec (.setOvfSub w a b c) s =
      .next { s with
        flags := { s.flags with
          of_ := (c.getLsbD (widthBits w - 1) ^^ b.getLsbD (widthBits w - 1)) &&
            (c.getLsbD (widthBits w - 1) ^^ a.getLsbD (widthBits w - 1)) }
        rsp := some ⟨.ok, 0, []⟩ } := by
  rw [← evalOvfSub_eq]
  exact exec_flags hs rfl

theorem exec_setCarry (w : Width) (a : Word) :
    exec (.setCarry w a) s =
      .next { s with flags := { s.flags with cf := a.getLsbD (widthBits w) }, rsp := some ⟨.ok, 0, []⟩ } := by
  rw [← evalCarry_eq]
  exact exec_flags hs rfl

theorem exec_deserialize (a : Word) :
    exec (.deserialize a) s =
      .next { s with flags := unpack (a.extractLsb' 0 16) s.flags, rsp := some ⟨.ok, 0, []⟩ } :=
  exec_flags hs rfl

theorem exec_serialize :
    exec .serialize s = .next { s with rsp := some ⟨.ok, halfResult (pack s.flags), []⟩ } :=
  exec_flags hs rfl

end Running

/-- Settles O14: both encodings, and SET_SIGN at each width. -/
theorem setSignWritesTheSignBit : Obligations.SetSignWritesTheSignBit :=
  ⟨fun _ => ⟨fun hc => decodeCommand_of_op hc rfl, fun hc => decodeCommand_of_op hc rfl⟩,
    fun _ a hs => ⟨exec_setSign hs .w8 a, exec_setSign hs .w16 a⟩⟩

/-- Settles O15: the encoding, and SET_PARITY as the evenness of its operand. -/
theorem setParityTestsBitZero : Obligations.SetParityTestsBitZero :=
  ⟨fun _ hc => decodeCommand_of_op hc rfl, fun _ a hs => exec_setParity hs a⟩

/-- Settles O16: both encodings, and SET_ZERO at each width. -/
theorem setZeroTestsTheLowBits : Obligations.SetZeroTestsTheLowBits :=
  ⟨fun _ => ⟨fun hc => decodeCommand_of_op hc rfl, fun hc => decodeCommand_of_op hc rfl⟩,
    fun _ a hs => ⟨exec_setZero hs .w8 a, exec_setZero hs .w16 a⟩⟩

/-- Settles O17: the encoding, and SET_AUX in its bit form. -/
theorem setAuxIsBitFourExclusiveOr : Obligations.SetAuxIsBitFourExclusiveOr :=
  ⟨fun _ hc => decodeCommand_of_op hc rfl, fun _ a b c hs => exec_setAux hs a b c⟩

/-- Settles O18: both encodings, and SET_OVF_ADD at each width. -/
theorem setOvfAddBySignBits : Obligations.SetOvfAddBySignBits :=
  ⟨fun _ => ⟨fun hc => decodeCommand_of_op hc rfl, fun hc => decodeCommand_of_op hc rfl⟩,
    fun _ a b c hs => ⟨exec_setOvfAdd hs .w8 a b c, exec_setOvfAdd hs .w16 a b c⟩⟩

/-- Settles O19: both encodings, and SET_OVF_SUB at each width. -/
theorem setOvfSubBySignBits : Obligations.SetOvfSubBySignBits :=
  ⟨fun _ => ⟨fun hc => decodeCommand_of_op hc rfl, fun hc => decodeCommand_of_op hc rfl⟩,
    fun _ a b c hs => ⟨exec_setOvfSub hs .w8 a b c, exec_setOvfSub hs .w16 a b c⟩⟩

/-- Settles O20: both encodings, and SET_CARRY at each width. -/
theorem setCarryReadsBitW : Obligations.SetCarryReadsBitW :=
  ⟨fun _ => ⟨fun hc => decodeCommand_of_op hc rfl, fun hc => decodeCommand_of_op hc rfl⟩,
    fun _ a hs => ⟨exec_setCarry hs .w8 a, exec_setCarry hs .w16 a⟩⟩

/-- Settles O24: the six encodings; each direct write is the field update `flagsAfter` gives for it. -/
theorem directWritesOfControlFlags : Obligations.DirectWritesOfControlFlags := by
  refine ⟨fun c => ⟨?_, ?_, ?_, ?_, ?_, ?_⟩, fun s v hs => ⟨?tf, ?if_, ?df⟩⟩
  case tf => exact exec_flags hs rfl
  case if_ => exact exec_flags hs rfl
  case df => exact exec_flags hs rfl
  all_goals exact fun hc => decodeCommand_of_op hc rfl

/-- A FLAGS command that CORE executes leaves the register `flagsAfter` gives. -/
theorem flags_of_exec_flags {i : Instr} {s t : State} (hs : s.faultCode = 0) (hi : i.handle = none)
    (h : exec i s = .next t) : t.flags = flagsAfter i s.flags := by
  rw [exec_flags hs hi] at h
  cases h
  rfl

/-- Settles O26: `flagsAfter` updates one field of an evaluator's register, with a value no register enters. -/
theorem evaluatorsWriteOneFlagFromOperands : Obligations.EvaluatorsWriteOneFlagFromOperands := by
  intro s s' t t' hs hs'
  refine ⟨fun w a h h' => ?_, fun a h h' => ?_, fun w a h h' => ?_, fun a b c h h' => ?_, fun w a b c h h' => ?_,
    fun w a b c h h' => ?_, fun w a h h' => ?_⟩
  all_goals
    rw [flags_of_exec_flags hs rfl h, flags_of_exec_flags hs' rfl h']
    exact ⟨rfl, rfl⟩

/-! ## DESERIALIZE -/

/-- What SERIALIZE answers over a register DESERIALIZE has just installed (40_flags_ops R128). -/
theorem halfResult_pack_unpack (a : Word) (f : Flags) :
    halfResult (pack (unpack (a.extractLsb' 0 16) f)) = (a &&& 0x7FD5) ||| 0x8000 := by
  have hlow : (a.extractLsb' 0 16).setWidth 32 = a &&& 0xFFFF := by
    refine BitVec.eq_of_toNat_eq ?_
    rw [BitVec.toNat_setWidth, BitVec.extractLsb'_toNat, BitVec.toNat_and]
    exact (Nat.mod_eq_of_lt (by omega)).trans (Nat.and_two_pow_sub_one_eq_mod a.toNat 16).symm
  rw [pack_unpack, halfResult, BitVec.setWidth_or, BitVec.setWidth_and, hlow, BitVec.and_assoc]
  rfl

/-- Settles O22: the twelve fields are `unpack`, a following SERIALIZE reads them back, and of the other commands
`flagsAfter_writers` says which flag each may change. -/
theorem deserializeInstallsTwelveFields : Obligations.DeserializeInstallsTwelveFields := by
  refine ⟨fun c hc => decodeCommand_of_op hc rfl, fun s a hs => ?fields, fun s a hs => ?serialized,
    fun i s t hi ht => ?others⟩
  case fields =>
    rw [exec_deserialize hs]
    simp [unpack]
  case serialized =>
    exact ⟨_, _, exec_deserialize hs a, exec_serialize hs, by rw [halfResult_pack_unpack]⟩
  case others =>
    rcases exec_cases ht with ⟨-, rfl⟩ | ⟨f, info, -, -, rfl⟩ | ⟨-, -, rfl⟩
    · simp
    · simp
    · obtain ⟨iopl, nt, cf, pf, af, zf, sf, of_, -⟩ := (flagsAfter_writers i s.flags).resolve_left hi
      refine ⟨iopl, nt, fun hn => ?_⟩
      simp only [List.mem_cons, not_or] at hn
      obtain ⟨hsf, hpf, hzf, haf, hadd, hsub, hcf, -⟩ := hn
      exact ⟨not_imp_comm.mp cf hcf, not_imp_comm.mp pf hpf, not_imp_comm.mp af haf, not_imp_comm.mp zf hzf,
        not_imp_comm.mp sf hsf, not_imp_comm.mp of_ (not_or.mpr ⟨hadd, hsub⟩)⟩

/-! ## The frame of the unit -/

/-- A FLAGS command leaves the store (40_flags_ops R110). -/
theorem memAfter_of_noHandle {i : Instr} (hi : i.handle = none) (m : Memory) : memAfter i m = m := by
  cases i with
  | writeByte | writeWord | writeBlock => cases hi
  | _ => rfl

/-- What a FLAGS command answers: no data, and no scalar unless it is SERIALIZE (40_flags_ops R110). -/
theorem answer_of_noHandle {i : Instr} (hi : i.handle = none) (s : State) :
    (answer i s).rdata = [] ∧ (i ≠ .serialize → (answer i s).r = 0) := by
  cases i with
  | serialize => exact ⟨rfl, fun hne => absurd rfl hne⟩
  | translate | readByte | readWord | readBlock | snapshot => cases hi
  | _ => exact ⟨rfl, fun _ => rfl⟩

/-- What a FLAGS command answers does not depend on the store or on `BUSY` (00_scope R3). -/
theorem answer_withStore {i : Instr} (hi : i.handle = none) (s : State) (m : Memory) (b : Bool) :
    answer i { s with mem := m, busy := b } = answer i s := by
  cases i with
  | readByte | readWord | readBlock | snapshot => cases hi
  | _ => rfl

/-- The state a FLAGS command leaves when CORE runs: the store is not written. -/
theorem completed_of_noHandle {i : Instr} (hi : i.handle = none) (s : State) :
    completed i s = { s with flags := flagsAfter i s.flags, rsp := some (answer i s) } := by
  rw [completed, memAfter_of_noHandle hi]

/-- Settles O25: a FLAGS command is refused or completes, and either way it neither reads nor writes the store. -/
theorem flagsUnitCommandsNeverFault : Obligations.FlagsUnitCommandsNeverFault := by
  intro i s hunit
  have hi : i.handle = none := (unit_flags_iff i).mp hunit
  by_cases hs : s.faultCode = 0
  · rw [exec_flags hs hi, completed_of_noHandle hi]
    obtain ⟨hdata, hr⟩ := answer_of_noHandle hi s
    refine ⟨⟨_, _, rfl, rfl, hdata, fun _ => answer_status i s, fun hne => absurd hs hne, hr⟩, ?_, rfl, rfl⟩
    rintro t ⟨⟩
    refine ⟨rfl, rfl, rfl, rfl, rfl, rfl, rfl, fun m b => ?_⟩
    rw [exec_flags (s := { s with mem := m, busy := b }) hs hi, completed_of_noHandle hi, answer_withStore hi]
  · rw [exec_halted hs]
    refine ⟨⟨_, _, rfl, rfl, rfl, fun h => absurd h hs, fun _ => ⟨rfl, rfl⟩, fun _ => rfl⟩, ?_, rfl, rfl⟩
    rintro t ⟨⟩
    exact ⟨rfl, rfl, rfl, rfl, rfl, rfl, rfl, fun m b => exec_halted hs⟩

/-! ## AF of a true sum or difference -/

/-- A carry in is the zero extension of one bit. -/
theorem ofNat_eq_setWidth_ofBool {k : Nat} (hk : k ≤ 1) :
    BitVec.ofNat 32 k = (BitVec.ofBool (decide (k = 1))).setWidth 32 := by
  interval_cases k <;> rfl

/-- Bit 4 of a sum is that of both operands and the carry into it, which is the carry out of bit 3
(40_flags_ops R119). -/
theorem evalAux_sum (x y : Word) {k : Nat} (hk : k ≤ 1) :
    evalAux (x + y + BitVec.ofNat 32 k) x y = decide (16 ≤ x.toNat % 16 + y.toNat % 16 + k) := by
  have hbit : (decide (k = 1)).toNat = k := by interval_cases k <;> rfl
  rw [evalAux_eq, ofNat_eq_setWidth_ofBool hk, BitVec.getLsbD_add_add_bool (by decide), BitVec.carry, hbit]
  cases x.getLsbD 4 <;> cases y.getLsbD 4 <;> simp

theorem evalAux_comm_left (a b c : Word) : evalAux a b c = evalAux b a c := by
  rw [evalAux, evalAux, ← BitVec.xor_assoc, BitVec.xor_comm a b, BitVec.xor_assoc]

theorem evalAux_comm_right (a b c : Word) : evalAux a b c = evalAux a c b := by
  rw [evalAux, evalAux, BitVec.xor_comm b c]

/-- The minuend is the sum of the difference, the subtrahend and the borrow in, so its carry out of bit 3 is the
difference's borrow (40_flags_ops R119). -/
theorem evalAux_difference (x y : Word) {k : Nat} (hk : k ≤ 1) :
    evalAux (x - y - BitVec.ofNat 32 k) x y = decide (x.toNat % 16 < y.toNat % 16 + k) := by
  obtain ⟨d, rfl⟩ : ∃ d, x = d + y + BitVec.ofNat 32 k := ⟨x - y - BitVec.ofNat 32 k, by ring⟩
  have hd : d + y + BitVec.ofNat 32 k - y - BitVec.ofNat 32 k = d := by ring
  rw [hd, evalAux_comm_left, evalAux_sum d y hk, decide_eq_decide, BitVec.toNat_add, BitVec.toNat_add,
    BitVec.toNat_ofNat]
  omega

/-- Settles O51: the sum, the difference, and the difference with the operands exchanged. -/
theorem setAuxIsNibbleCarryOrBorrow : Obligations.SetAuxIsNibbleCarryOrBorrow := by
  intro s b c k hs hk
  refine ⟨⟨_, exec_flags hs rfl, evalAux_sum b c hk⟩, ⟨_, exec_flags hs rfl, evalAux_difference b c hk⟩,
    ⟨_, exec_flags hs rfl, ?_⟩⟩
  exact (evalAux_comm_right _ b c).trans (evalAux_difference c b hk)

/-! ## OF of a true sum or difference -/

/-- The value operand read as a two's-complement number of the width (40_flags_ops R121). -/
def signedReading (w : Width) (x : Word) : Int := (x.setWidth (widthBits w)).toInt

/-- The sign bit of the width says that the signed reading is negative. -/
theorem getLsbD_sign (w : Width) (x : Word) : x.getLsbD (widthBits w - 1) = decide (signedReading w x < 0) := by
  rw [signedReading, ← BitVec.msb_eq_toInt, BitVec.msb_setWidth]
  cases w <;> rfl

theorem signedReading_mem_range (w : Width) (x : Word) :
    -2 ^ (widthBits w - 1) ≤ signedReading w x ∧ signedReading w x < 2 ^ (widthBits w - 1) :=
  ⟨BitVec.le_toInt _, BitVec.toInt_lt⟩

theorem signedReading_modEq (w : Width) (x : Word) : signedReading w x ≡ x.toNat [ZMOD 2 ^ widthBits w] := by
  rw [signedReading, BitVec.toInt_setWidth]
  exact_mod_cast Int.bmod_emod

/-- Operands that sum to the result modulo `2^w` have signed readings that do. -/
theorem signedReading_sum {w : Width} {a b c : Word} {k : Nat}
    (h : a.toNat % 2 ^ widthBits w = (b.toNat + c.toNat + k) % 2 ^ widthBits w) :
    signedReading w b + signedReading w c + k ≡ signedReading w a [ZMOD 2 ^ widthBits w] := by
  have hsum : (b.toNat + c.toNat + k : Int) ≡ a.toNat [ZMOD 2 ^ widthBits w] := by exact_mod_cast h.symm
  exact (((signedReading_modEq w b).add (signedReading_modEq w c)).add_right _).trans
    (hsum.trans (signedReading_modEq w a).symm)

/-- A number that agrees with a signed reading modulo `2^w` is in the signed range only as that reading. -/
theorem outside_iff_ne_signedReading {w : Width} {x : Word} {n : Int}
    (h : n ≡ signedReading w x [ZMOD 2 ^ widthBits w]) :
    ¬ (-2 ^ (widthBits w - 1) ≤ n ∧ n ≤ 2 ^ (widthBits w - 1) - 1) ↔ n ≠ signedReading w x := by
  have hx := signedReading_mem_range w x
  cases w <;> simp only [widthBits, Int.ModEq] at * <;> omega

/-- SET_OVF_ADD in signed readings: both operands have one sign, the result the other (40_flags_ops R120). -/
theorem evalOvfAdd_iff_signs (w : Width) (a b c : Word) :
    evalOvfAdd w a b c = true ↔
      (signedReading w a < 0 ↔ 0 ≤ signedReading w b) ∧ (signedReading w a < 0 ↔ 0 ≤ signedReading w c) := by
  simp only [evalOvfAdd_eq, getLsbD_sign, Bool.and_eq_true, bne_iff_ne, ne_eq, decide_eq_decide, not_iff, not_lt]
  omega

/-- For a true sum SET_OVF_ADD says that the sum of the signed readings is not the reading of the result. -/
theorem evalOvfAdd_iff_ne {w : Width} {a b c : Word} {k : Nat} (hk : k ≤ 1)
    (h : signedReading w b + signedReading w c + k ≡ signedReading w a [ZMOD 2 ^ widthBits w]) :
    evalOvfAdd w a b c = true ↔ signedReading w b + signedReading w c + k ≠ signedReading w a := by
  have ha := signedReading_mem_range w a
  have hb := signedReading_mem_range w b
  have hc := signedReading_mem_range w c
  rw [evalOvfAdd_iff_signs]
  cases w <;> simp only [widthBits, Int.ModEq] at * <;> omega

/-- SET_OVF_ADD is the signed overflow of a true sum (40_flags_ops R121). -/
theorem evalOvfAdd_iff_outside {w : Width} {a b c : Word} {k : Nat} (hk : k ≤ 1)
    (h : a.toNat % 2 ^ widthBits w = (b.toNat + c.toNat + k) % 2 ^ widthBits w) :
    evalOvfAdd w a b c = true ↔
      ¬ (-2 ^ (widthBits w - 1) ≤ signedReading w b + signedReading w c + k ∧
        signedReading w b + signedReading w c + k ≤ 2 ^ (widthBits w - 1) - 1) :=
  (evalOvfAdd_iff_ne hk (signedReading_sum h)).trans (outside_iff_ne_signedReading (signedReading_sum h)).symm

/-- SET_OVF_SUB is the signed overflow of operand2 - operand1 (40_flags_ops R123): its formula is the one of the sum
`c = b + a`, and that sum overflows exactly when the difference `a = c - b` does. -/
theorem evalOvfSub_iff_outside (w : Width) (b c : Word) :
    evalOvfSub w (c - b) b c = true ↔
      ¬ (-2 ^ (widthBits w - 1) ≤ signedReading w c - signedReading w b ∧
        signedReading w c - signedReading w b ≤ 2 ^ (widthBits w - 1) - 1) := by
  have hnat : c.toNat % 2 ^ widthBits w = (b.toNat + (c - b).toNat + 0) % 2 ^ widthBits w := by
    rw [BitVec.toNat_sub]
    cases w <;> simp only [widthBits] <;> omega
  have hsum := signedReading_sum hnat
  have hdiff : signedReading w c - signedReading w b ≡ signedReading w (c - b) [ZMOD 2 ^ widthBits w] := by
    simpa using (hsum.sub_right (signedReading w b)).symm
  calc evalOvfAdd w c b (c - b) = true
      ↔ signedReading w b + signedReading w (c - b) + (0 : Nat) ≠ signedReading w c :=
        evalOvfAdd_iff_ne (Nat.zero_le 1) hsum
    _ ↔ signedReading w c - signedReading w b ≠ signedReading w (c - b) := by omega
    _ ↔ _ := (outside_iff_ne_signedReading hdiff).symm

/-- Settles O52, at each width. -/
theorem setOvfAddIsSignedOverflow : Obligations.SetOvfAddIsSignedOverflow := by
  intro s a b c k hs hk
  exact ⟨fun _ _ h => ⟨_, exec_flags hs rfl, evalOvfAdd_iff_outside (w := .w8) hk h⟩,
    fun _ _ h => ⟨_, exec_flags hs rfl, evalOvfAdd_iff_outside (w := .w16) hk h⟩⟩

/-- Settles O53: the overflow of operand2 - operand1 at each width, and the three calls of R123. -/
theorem setOvfSubIsSignedOverflowOfOperand2MinusOperand1 :
    Obligations.SetOvfSubIsSignedOverflowOfOperand2MinusOperand1 :=
  ⟨fun _ b c hs => ⟨⟨_, exec_flags hs rfl, evalOvfSub_iff_outside .w8 b c⟩,
      ⟨_, exec_flags hs rfl, evalOvfSub_iff_outside .w16 b c⟩⟩,
    fun _ hs =>
      ⟨⟨_, exec_flags hs rfl, rfl⟩, ⟨_, exec_flags hs rfl, rfl⟩, ⟨_, exec_flags hs rfl, rfl⟩⟩⟩

/-! ## CF of a true sum or difference -/

/-- A bit of an operand in arithmetic. -/
theorem evalCarry_iff (w : Width) (a : Word) : evalCarry w a = true ↔ a.toNat / 2 ^ widthBits w % 2 = 1 := by
  rw [evalCarry_eq, ← BitVec.testBit_toNat, Nat.testBit_eq_decide_div_mod_eq, decide_eq_true_iff]

/-- Bit w of an exact sum is its carry: the sum is below `2^(w+1)` (40_flags_ops R126 (a)). -/
theorem evalCarry_sum {w : Width} {x y k : Nat} (hx : x < 2 ^ widthBits w) (hy : y < 2 ^ widthBits w) (hk : k ≤ 1) :
    evalCarry w (BitVec.ofNat 32 (x + y + k)) = true ↔ 2 ^ widthBits w ≤ x + y + k := by
  rw [evalCarry_iff, BitVec.toNat_ofNat]
  cases w <;> simp only [widthBits] at * <;> omega

/-- Bit w of a wrapping difference is its borrow: a difference that wraps has every bit from w on set
(40_flags_ops R126 (b)). -/
theorem evalCarry_difference {w : Width} {x y k : Nat} (hx : x < 2 ^ widthBits w) (hy : y < 2 ^ widthBits w)
    (hk : k ≤ 1) :
    evalCarry w (BitVec.ofNat 32 x - BitVec.ofNat 32 y - BitVec.ofNat 32 k) = true ↔ x < y + k := by
  rw [evalCarry_iff, BitVec.toNat_sub, BitVec.toNat_sub, BitVec.toNat_ofNat, BitVec.toNat_ofNat, BitVec.toNat_ofNat]
  cases w <;> simp only [widthBits] at * <;> omega

/-- A result masked to the width has bit w clear (40_flags_ops R126 (c)). -/
theorem evalCarry_masked {w : Width} {x : Nat} (hx : x < 2 ^ widthBits w) :
    evalCarry w (BitVec.ofNat 32 x) = false := by
  have hsum := evalCarry_sum hx (Nat.two_pow_pos _) (Nat.zero_le 1)
  exact Bool.eq_false_iff.mpr fun h => absurd (hsum.mp h) (Nat.not_le.mpr hx)

/-- Settles O54: the carry, the borrow and the masked result. -/
theorem setCarryIsCarryOrBorrow : Obligations.SetCarryIsCarryOrBorrow := fun _ _ _ _ _ hs hx hy hk =>
  ⟨⟨_, exec_flags hs rfl, evalCarry_sum hx hy hk⟩, ⟨_, exec_flags hs rfl, evalCarry_difference hx hy hk⟩,
    ⟨_, exec_flags hs rfl, evalCarry_masked hx⟩⟩

/-! ## PF and the textbook parity -/

/-- How many of the first n + 1 bits are set: bit 0, and those of the n bits above it. -/
theorem length_filter_range_succ (p : Nat → Bool) (n : Nat) :
    ((List.range (n + 1)).filter p).length = (p 0).toNat + ((List.range n).filter fun k => p (k + 1)).length := by
  rw [List.range_succ_eq_map, List.filter_cons, List.filter_map]
  cases p 0 <;> simp [Function.comp_def, Nat.add_comm]

theorem evalParity_iff (a : Word) : evalParity a = true ↔ a.toNat % 2 = 0 := by
  rw [evalParity_eq, decide_eq_true_iff]

/-- Settles O55: bit 0 is the one bit PF reads and a[7:1] leaves out; and a count is even exactly when its bit 0 is
clear. -/
theorem setParityAgainstTextbook : Obligations.SetParityAgainstTextbook := by
  intro s a hs
  refine ⟨⟨_, exec_flags hs rfl, ?_⟩, ⟨_, exec_flags hs rfl, ?_⟩⟩
  · rw [length_filter_range_succ]
    change ((!a.getLsbD 0) = true ↔ _) ↔ _
    cases a.getLsbD 0 with
    | false => simp
    | true => simp only [Bool.not_true, Bool.toNat_true, Bool.false_eq_true, false_iff]; omega
  · refine (evalParity_iff _).trans ?_
    rw [BitVec.toNat_ofNat]
    omega

end Sys2Proof.Machine

/-!
PROOFS of the family 41_mmu_ops: where the writes store, the block reads and the block write, the frame of the MMU
unit, and the laws of R158 to R160. Reads and frames turn on `storedByte`: an address it names reads that byte
afterwards, any other is kept. That the byte writes of a block may come in any order turns on `Memory.write_comm`.
-/

namespace Sys2Proof.Machine

/-! ## Where the writes store -/

theorem storedByte_writeByte_same (h : Nat) (seg off : Half) (a : Word) :
    storedByte (.writeByte h seg off a) (lin seg off) = some (a.extractLsb' 0 8) := if_pos rfl

theorem storedByte_writeWord_low (h : Nat) (seg off : Half) (a : Word) :
    storedByte (.writeWord h seg off a) (lin seg off) = some (a.extractLsb' 0 8) := if_pos rfl

theorem storedByte_writeWord_high (h : Nat) (seg off : Half) (a : Word) :
    storedByte (.writeWord h seg off a) (lin seg off + 1) = some (a.extractLsb' 8 8) := by
  rw [storedByte, if_neg (Nat.succ_ne_self _), if_pos rfl]

theorem storedByte_writeBlock_inside (h : Nat) (seg off : Half) {data : List Byte} {i : Nat} (hi : i < data.length) :
    storedByte (.writeBlock h seg off data) (lin seg off + i) = some data[i] := by
  rw [storedByte, if_pos (Nat.le_add_right _ _), Nat.add_sub_cancel_left, List.getElem?_eq_getElem hi]

theorem storedByte_writeByte_other {h : Nat} {seg off : Half} {a : Word} {addr : Nat} (hne : addr ≠ lin seg off) :
    storedByte (.writeByte h seg off a) addr = none := if_neg hne

theorem storedByte_writeWord_other {h : Nat} {seg off : Half} {a : Word} {addr : Nat} (hlow : addr ≠ lin seg off)
    (hhigh : addr ≠ lin seg off + 1) : storedByte (.writeWord h seg off a) addr = none := by
  rw [storedByte, if_neg hlow, if_neg hhigh]

theorem storedByte_writeBlock_outside {h : Nat} {seg off : Half} {data : List Byte} {addr : Nat}
    (hout : addr < lin seg off ∨ lin seg off + data.length ≤ addr) :
    storedByte (.writeBlock h seg off data) addr = none := by
  rw [storedByte, ite_eq_right_iff]
  exact fun hle => List.getElem?_eq_none (by omega)

/-- A byte the command stores is read back after it. -/
theorem read_memAfter_of_stored {m : Memory} {i : Instr} {addr : Nat} {b : Byte} (hm : m.wf)
    (h : storedByte i addr = some b) : (memAfter i m).read addr = b := by
  rw [read_memAfter hm, h, Option.getD_some]

/-- A byte the command does not store to is kept, in any list (20_memory R57, R58). -/
theorem read_memAfter_of_not_stored {i : Instr} {addr : Nat} (h : storedByte i addr = none) (m : Memory) :
    (memAfter i m).read addr = m.read addr := by
  cases i with
  | writeByte _ seg off a =>
    have hne : addr ≠ lin seg off := fun heq => by simp [heq, storedByte_writeByte_same] at h
    exact Memory.read_write_other _ hne
  | writeWord _ seg off a =>
    have hlow : addr ≠ lin seg off := fun heq => by simp [heq, storedByte_writeWord_low] at h
    have hhigh : addr ≠ lin seg off + 1 := fun heq => by simp [heq, storedByte_writeWord_high] at h
    exact (Memory.read_write_other _ hhigh).trans (Memory.read_write_other _ hlow)
  | writeBlock _ seg off data =>
    by_cases hle : lin seg off ≤ addr
    · rw [storedByte, if_pos hle, List.getElem?_eq_none_iff] at h
      exact Memory.read_writeBlock_outside (.inr (by omega))
    · exact Memory.read_writeBlock_outside (.inl (by omega))
  | _ => rfl

/-! ## Blocks -/

/-- Settles O32: an access in range completes, and SNAPSHOT's always is. -/
theorem readBlockAndSnapshotAnswerTheStore : Obligations.ReadBlockAndSnapshotAnswerTheStore := by
  refine ⟨fun c => ⟨fun hc => ?decodesBlock, fun hc => ?decodesSnapshot⟩,
    fun s h hs hh hb => ⟨fun seg off a hr => ?block, ?snapshot⟩,
    fun s h => ⟨fun seg off a => accessFaults rfl rfl, accessFaults rfl rfl⟩⟩
  case decodesBlock => exact decodeCommand_of_op (o := .readBlock) (v := false) hc (by decide)
  case decodesSnapshot => exact decodeCommand_of_op (o := .snapshot) (v := false) hc (by decide)
  case block =>
    exact ⟨_, exec_inRange hs rfl hh hb rfl hr, Memory.length_readBlock _ _ _,
      fun i hi => Memory.getElem?_readBlock hi⟩
  case snapshot =>
    refine ⟨_, exec_inRange hs rfl hh hb rfl (Nat.zero_add _).le, Memory.length_readBlock _ _ _, fun i hi => ?_⟩
    rw [Memory.getElem?_readBlock hi, Nat.zero_add]

/-- Settles O33: a byte inside the block is stored, so it is read back; one outside is kept. -/
theorem writeBlockStoresTheSequence : Obligations.WriteBlockStoresTheSequence := by
  refine ⟨fun c hc => ?decodes, fun s h seg off data hs hh hb hm hr => ?stores,
    fun s h seg off data => accessFaults rfl rfl⟩
  case decodes => exact decodeCommand_of_op (o := .writeBlock) (v := false) hc (by decide)
  case stores =>
    refine ⟨_, exec_inRange hs rfl hh hb rfl hr, fun i hi => ?_, fun addr => Memory.read_writeBlock_outside⟩
    exact read_memAfter_of_stored hm (storedByte_writeBlock_inside h seg off hi)

/-! ## The frame of the unit -/

/-- A command stores what it stores when it completes, or nothing. -/
theorem mem_of_exec {i : Instr} {s t : State} (he : exec i s = .next t) :
    t.mem = s.mem ∨ t.mem = memAfter i s.mem := by
  rcases exec_cases he with ⟨-, rfl⟩ | ⟨f, info, -, -, rfl⟩ | ⟨-, -, rfl⟩
  · exact .inl rfl
  · exact .inl rfl
  · exact .inr rfl

/-- Only the three writes change the store (10_state R32). -/
theorem mem_eq_of_exec {i : Instr} {s t : State} (he : exec i s = .next t)
    (hi : ¬ (i.opcode = .writeByte ∨ i.opcode = .writeWord ∨ i.opcode = .writeBlock)) : t.mem = s.mem :=
  (mem_of_exec he).elim id fun hmem => hmem.trans (not_not.mp fun hne => hi (opcode_of_memAfter_ne hne))

theorem read_exec_of_not_stored {i : Instr} {s t : State} {addr : Nat} (he : exec i s = .next t)
    (h : storedByte i addr = none) : t.mem.read addr = s.mem.read addr := by
  rcases mem_of_exec he with hmem | hmem
  · rw [hmem]
  · rw [hmem, read_memAfter_of_not_stored h]

/-- An MMU command neither writes FLAGS nor leaves `BUSY` changed (20_memory R57, 10_state R33). -/
theorem exec_mmu_frame {i : Instr} {s t : State} {h : Nat} (hi : i.handle = some h) (he : exec i s = .next t) :
    t.flags = s.flags ∧ t.busy = s.busy ∧ t.host = s.host ∧ t.cfg = s.cfg := by
  rcases exec_cases he with ⟨-, rfl⟩ | ⟨f, info, -, -, rfl⟩ | ⟨-, -, rfl⟩
  · exact ⟨rfl, rfl, rfl, rfl⟩
  · exact ⟨rfl, rfl, rfl, rfl⟩
  · exact ⟨flagsAfter_of_handle hi s.flags, rfl, rfl, rfl⟩

theorem Fault.status_ne (f : Fault) : f.status ≠ .ok ∧ f.status ≠ .halted := by cases f <;> decide

/-- Only fault entry writes the latch (10_state R35, 60_exceptions R189). -/
theorem exec_keeps_latch {i : Instr} {s t : State} {r : Response} (he : exec i s = .next t) (hr : t.rsp = some r)
    (hok : r.status = .ok ∨ r.status = .halted) :
    t.faultCode = s.faultCode ∧ t.faultOp = s.faultOp ∧ t.faultAddr = s.faultAddr := by
  rcases exec_cases he with ⟨-, rfl⟩ | ⟨f, info, -, -, rfl⟩ | ⟨-, -, rfl⟩
  · exact ⟨rfl, rfl, rfl⟩
  · cases hr
    exact (hok.elim f.status_ne.1 f.status_ne.2).elim
  · exact ⟨rfl, rfl, rfl⟩

/-- Settles O34: the store clauses say where each of the three writes stores no byte. -/
theorem mmuCommandsFrame : Obligations.MmuCommandsFrame := by
  intro i s t hunit he
  obtain ⟨h, hi⟩ := (unit_mmu_iff i).mp hunit
  obtain ⟨hflags, hbusy, hhost, hcfg⟩ := exec_mmu_frame hi he
  refine ⟨hflags, hbusy, hhost, hcfg, fun _ => exec_keeps_latch he, fun hop => ?noStore,
    fun h seg off a hw addr hne => ?byte, fun h seg off a hw addr hlow hhigh => ?word,
    fun h seg off data hw addr hout => ?block⟩
  case noStore =>
    refine mem_eq_of_exec he ?_
    rcases hop with hop | hop | hop | hop | hop <;> simp [hop]
  case byte => exact read_exec_of_not_stored he (hw ▸ storedByte_writeByte_other hne)
  case word => exact read_exec_of_not_stored he (hw ▸ storedByte_writeWord_other hlow hhigh)
  case block => exact read_exec_of_not_stored he (hw ▸ storedByte_writeBlock_outside hout)

/-! ## A write and a read through an alias -/

/-- The low and the high byte of a value as numbers (20_memory R57). -/
theorem toNat_lowByte (v : Word) : (v.extractLsb' 0 8).toNat = v.toNat % 0x100 := by
  simp [BitVec.extractLsb'_toNat]

theorem toNat_highByte (v : Word) : (v.extractLsb' 8 8).toNat = v.toNat / 0x100 % 0x100 := by
  simp [BitVec.extractLsb'_toNat, Nat.shiftRight_eq_div_pow]

/-- After a command that completed, a READ_BYTE through any valid handle answers the byte the command stored. -/
theorem readByte_after_completed {i : Instr} {s : State} {h : Nat} {seg off : Half} {b : Byte}
    (hs : s.faultCode = 0) (hb : s.busy = false) (hm : s.mem.wf) (hh : h < s.cfg.nHandles)
    (hr : lin seg off + 1 ≤ s.cfg.cap) (hstored : storedByte i (lin seg off) = some b) :
    ∃ u r, exec (.readByte h seg off) (completed i s) = .next u ∧ u.rsp = some ⟨.ok, r, []⟩ ∧ r.toNat = b.toNat := by
  refine ⟨_, _, exec_inRange hs rfl hh hb rfl hr, rfl, ?_⟩
  rw [toNat_byteResult, Memory.readByte, completed_mem, read_memAfter_of_stored hm hstored]

/-- Settles O45: a write in range completes, and so does the read after it, which answers the stored bytes. -/
theorem readAfterWriteThroughAnyAlias : Obligations.ReadAfterWriteThroughAnyAlias := by
  intro s h h' seg off seg' off' v hs hb hm hh hh'
  have hword (hr : lin seg off + 2 ≤ s.cfg.cap) :
      exec (.writeWord h seg off v) s = .next (completed (.writeWord h seg off v) s) :=
    exec_inRange hs rfl hh hb rfl hr
  refine ⟨fun heq hr => ?byteByte, fun heq hr => ?wordWord, fun heq hr => ?wordLow, fun heq hr => ?wordHigh,
    fun t he addr hne => read_exec_of_not_stored he (storedByte_writeByte_other hne),
    fun t he addr hlow hhigh => read_exec_of_not_stored he (storedByte_writeWord_other hlow hhigh)⟩
  case byteByte =>
    obtain ⟨u, r, hread, hrsp, hval⟩ := readByte_after_completed hs hb hm hh' (heq ▸ hr)
      (heq ▸ storedByte_writeByte_same h seg off v)
    exact ⟨_, u, r, exec_inRange hs rfl hh hb rfl hr, hread, hrsp, hval.trans (toNat_lowByte v)⟩
  case wordWord =>
    refine ⟨_, _, _, hword hr, exec_inRange hs rfl hh' hb rfl (heq ▸ hr), rfl, ?_⟩
    rw [toNat_halfResult, ← heq, Memory.toNat_readHalf, completed_mem,
      read_memAfter_of_stored hm (storedByte_writeWord_low h seg off v),
      read_memAfter_of_stored hm (storedByte_writeWord_high h seg off v), toNat_lowByte, toNat_highByte]
    omega
  case wordLow =>
    obtain ⟨u, r, hread, hrsp, hval⟩ := readByte_after_completed hs hb hm hh' (by omega)
      (heq ▸ storedByte_writeWord_low h seg off v)
    exact ⟨_, u, r, hword hr, hread, hrsp, hval.trans (toNat_lowByte v)⟩
  case wordHigh =>
    obtain ⟨u, r, hread, hrsp, hval⟩ := readByte_after_completed hs hb hm hh' (by omega)
      (heq ▸ storedByte_writeWord_high h seg off v)
    exact ⟨_, u, r, hword hr, hread, hrsp, hval.trans (toNat_highByte v)⟩

/-! ## A block write as byte writes in any order -/

/-- The writes of a list of bytes at addresses, one after the other. -/
def Memory.writeCells (m : Memory) : List Host.Cell → Memory
  | [] => m
  | (addr, b) :: cells => Memory.writeCells (m.write addr b) cells

/-- Writes at different addresses commute. -/
theorem Memory.write_comm {m : Memory} (hm : m.wf) {a a' : Nat} (hne : a ≠ a') (b b' : Byte) :
    (m.write a b).write a' b' = (m.write a' b').write a b := by
  refine Memory.eq_of_read_eq (Memory.wf_write (Memory.wf_write hm _ _) _ _)
    (Memory.wf_write (Memory.wf_write hm _ _) _ _) fun addr => ?_
  rw [Memory.read_write (Memory.wf_write hm a b), Memory.read_write (Memory.wf_write hm a' b'),
    Memory.read_write hm, Memory.read_write hm]
  by_cases h : addr = a
  · simp [h, hne]
  · simp [h]

/-- Writes at pairwise different addresses leave the same store in any order. -/
theorem Memory.writeCells_perm {cells cells' : List Host.Cell} (hp : cells.Perm cells')
    (hd : (cells.map Prod.fst).Nodup) {m : Memory} (hm : m.wf) : m.writeCells cells = m.writeCells cells' := by
  induction hp generalizing m with
  | nil => rfl
  | cons cell _ ih => exact ih (List.nodup_cons.mp hd).2 (Memory.wf_write hm _ _)
  | swap cell cell' cells =>
    have hne : cell'.1 ≠ cell.1 := fun heq => (List.nodup_cons.mp hd).1 (by simp [heq])
    exact congrArg (Memory.writeCells · cells) (Memory.write_comm hm hne _ _)
  | trans hp _ ih ih' => exact (ih hd hm).trans (ih' ((hp.map _).nodup hd) hm)

/-- The addresses and bytes of a block (20_memory R58). -/
def blockCells (base : Nat) (data : List Byte) : List Host.Cell := data.zipIdx.map fun x => (base + x.2, x.1)

theorem Memory.writeBlock_eq_writeCells (m : Memory) (base : Nat) (data : List Byte) :
    m.writeBlock base data = m.writeCells (blockCells base data) := by
  suffices h : ∀ k, m.writeBlock (base + k) data =
      m.writeCells ((data.zipIdx k).map fun x => (base + x.2, x.1)) from h 0
  induction data generalizing m with
  | nil => exact fun _ => rfl
  | cons b data ih => exact fun k => ih (m.write (base + k) b) (k + 1)

theorem nodup_blockCells (base : Nat) (data : List Byte) : ((blockCells base data).map Prod.fst).Nodup := by
  have haddr : (blockCells base data).map Prod.fst = (data.zipIdx.map Prod.snd).map (base + ·) := by
    simp only [blockCells, List.map_map]
    rfl
  rw [haddr, List.zipIdx_map_snd]
  exact List.Nodup.map (add_right_injective base) List.nodup_range'

theorem lt_of_mem_blockCells {base : Nat} {data : List Byte} {cell : Host.Cell} (h : cell ∈ blockCells base data) :
    cell.1 < base + data.length := by
  obtain ⟨x, hx, rfl⟩ := List.mem_map.mp h
  simpa using List.snd_lt_of_mem_zipIdx hx

/-- The WRITE_BYTE of a handle, a pair and a value. -/
def byteWrite (x : Nat × Half × Half × Word) : Instr := .writeByte x.1 x.2.1 x.2.2.1 x.2.2.2

/-- The address and the byte it stores. -/
def byteWriteCell (x : Nat × Half × Half × Word) : Host.Cell := (lin x.2.1 x.2.2.1, x.2.2.2.extractLsb' 0 8)

/-- Byte writes in range all complete, and leave the store their bytes are written to one by one. -/
theorem execAll_byteWrites {writes : List (Nat × Half × Half × Word)} {s : State} (hs : s.faultCode = 0)
    (hb : s.busy = false) (hh : ∀ x ∈ writes, x.1 < s.cfg.nHandles)
    (hr : ∀ x ∈ writes, (byteWriteCell x).1 < s.cfg.cap) :
    (execAll (writes.map byteWrite) s).mem = s.mem.writeCells (writes.map byteWriteCell) ∧
    (execAll (writes.map byteWrite) s).faultCode = 0 := by
  induction writes generalizing s with
  | nil => exact ⟨rfl, hs⟩
  | cons x writes ih =>
    rw [List.forall_mem_cons] at hh hr
    have hx : exec (byteWrite x) s = .next (completed (byteWrite x) s) := exec_inRange hs rfl hh.1 hb rfl hr.1
    rw [List.map_cons, execAll_cons _ hx]
    exact ih (s := completed (byteWrite x) s) hs hb hh.2 hr.2

/-- Settles O46: the block's bytes are written in rising order, and the byte writes in another order of the same. -/
theorem writeBlockEqualsByteWritesInAnyOrder : Obligations.WriteBlockEqualsByteWritesInAnyOrder := by
  intro s h seg off data writes hs hb hsound hh hr hvalid hperm
  have hcells : (writes.map byteWriteCell).Perm (blockCells (lin seg off) data) := hperm
  have hrange : ∀ x ∈ writes, (byteWriteCell x).1 < s.cfg.cap := fun x hx =>
    (lt_of_mem_blockCells (hcells.subset (List.mem_map_of_mem hx))).trans_le hr
  obtain ⟨hmem, hfault⟩ := execAll_byteWrites hs hb hvalid hrange
  refine ⟨_, exec_inRange hs rfl hh hb rfl hr, ?_, hfault⟩
  calc (execAll (writes.map byteWrite) s).mem
      = s.mem.writeCells (writes.map byteWriteCell) := hmem
    _ = s.mem.writeCells (blockCells (lin seg off) data) :=
      (Memory.writeCells_perm hcells.symm (nodup_blockCells _ _) hsound.1).symm
    _ = s.mem.writeBlock (lin seg off) data := (Memory.writeBlock_eq_writeCells _ _ _).symm

/-! ## A block read as byte reads -/

/-- A command that is answered OK met CORE running and raised nothing, and its response is its answer. -/
theorem answer_of_status_ok {i : Instr} {s t : State} {r : Response} (he : exec i s = .next t)
    (hr : t.rsp = some r) (hok : r.status = .ok) : s.faultCode = 0 ∧ raises i s = none ∧ r = answer i s := by
  rcases exec_cases he with ⟨-, rfl⟩ | ⟨f, info, -, -, rfl⟩ | ⟨hs, hn, rfl⟩
  · cases hr
    cases hok
  · cases hr
    exact (f.status_ne.1 hok).elim
  · exact ⟨hs, hn, (Option.some.inj hr).symm⟩

/-- A store access that raises nothing is in range (60_exceptions R186). -/
theorem inRange_of_raises_none {i : Instr} {s : State} {h base n : Nat} (hr : raises i s = none)
    (hi : i.handle = some h) (ha : storeAccess s.cfg.cap i = some (base, n)) : base + n ≤ s.cfg.cap := by
  simp only [raises, hi, ha] at hr
  split_ifs at hr
  omega

/-- Settles O47: the answered block was in range, so each of its bytes is; the block of `CAP` bytes at 0 is the
store, as SNAPSHOT's is. -/
theorem readBlockEqualsByteReads : Obligations.ReadBlockEqualsByteReads := by
  refine ⟨fun s t h h' i seg off seg' off' a r hb hh' he hrsp hok hi hlin => ?bytes,
    fun s h seg off a hlin hlen hs hh hb => ?whole⟩
  case bytes =>
    obtain ⟨hs, hraises, rfl⟩ := answer_of_status_ok he hrsp hok
    have hr : lin seg off + a.toNat ≤ s.cfg.cap := inRange_of_raises_none hraises rfl rfl
    have hr' : lin seg' off' + 1 ≤ s.cfg.cap := by omega
    exact ⟨_, _, exec_inRange hs rfl hh' hb rfl hr', Memory.getElem?_readBlock hi, by rw [← hlin]; rfl⟩
  case whole =>
    have hblock : answer (.readBlock h seg off a) s = answer (.snapshot h) s := by simp only [answer, hlin, hlen]
    rw [exec_inRange hs rfl hh hb rfl (show lin seg off + a.toNat ≤ s.cfg.cap by omega),
      exec_inRange hs rfl hh hb rfl (show 0 + s.cfg.cap ≤ s.cfg.cap by omega), completed, hblock]
    rfl

end Sys2Proof.Machine

/-!
PROOFS of the family 60_exceptions: what a step on a command does, legal or reserved, said once
(`step_command_cases`), then each fault under its condition, the halted condition, the order of outcomes, fault
entry, and the runs from reset. What a fault needs is `raises_some`, what its absence says is `raises_none`.
-/

namespace Sys2Proof.Machine

/-! ## A step on a command, legal or reserved -/

/-- The fault a command raises when CORE runs, with the address it records: `IllegalCommand` for a reserved `op`,
else its instruction's (60_exceptions R183 to R186). -/
def commandRaises (c : Command) (s : State) : Option (Fault × Nat) :=
  match decodeCommand c with
  | .ok i => raises i s
  | .error _ => some (.illegalCommand, 0)

theorem commandRaises_ok {c : Command} {i : Instr} (s : State) (h : decodeCommand c = .ok i) :
    commandRaises c s = raises i s := by
  simp [commandRaises, h]

theorem commandRaises_error {c : Command} {e : DecodeError} (s : State) (h : decodeCommand c = .error e) :
    commandRaises c s = some (.illegalCommand, 0) := by
  simp [commandRaises, h]

/-- The three things a step on a command can do, legal or reserved: refuse it, raise its fault with its own `op`,
or complete the instruction it decodes to. -/
theorem step_command_cases {s t : State} {c : Command} {rest : List HostMove} (hhost : s.host = .command c :: rest)
    (hstep : step s = .next t) :
    s.faultCode ≠ 0 ∧ t = ({ s with host := rest } : State).refuse ∨
    (∃ f info, s.faultCode = 0 ∧ commandRaises c s = some (f, info) ∧
      t = ({ s with host := rest } : State).raise f c.op info) ∨
    ∃ i, s.faultCode = 0 ∧ decodeCommand c = .ok i ∧ raises i s = none ∧
      t = completed i { s with host := rest } := by
  rw [step_command hhost] at hstep
  cases hd : decodeCommand c with
  | ok i =>
    rw [runCommand_ok _ hd] at hstep
    rcases exec_cases hstep with ⟨hs, rfl⟩ | ⟨f, info, hs, hr, rfl⟩ | ⟨hs, hr, rfl⟩
    · exact .inl ⟨hs, rfl⟩
    · exact .inr (.inl ⟨f, info, hs, (commandRaises_ok s hd).trans hr, by rw [op_of_decodeCommand hd]⟩)
    · exact .inr (.inr ⟨i, hs, rfl, hr, rfl⟩)
  | error e =>
    rw [runCommand_error _ hd] at hstep
    rcases execReserved_next hstep with ⟨hs, rfl⟩ | ⟨hs, rfl⟩
    · exact .inl ⟨hs, rfl⟩
    · exact .inr (.inl ⟨_, _, hs, commandRaises_error s hd, rfl⟩)

theorem runCommand_next (c : Command) (s : State) : ∃ t, runCommand c s = .next t := by
  cases hd : decodeCommand c with
  | ok i => exact runCommand_ok s hd ▸ exec_next i s
  | error e => exact runCommand_error s hd ▸ ⟨_, rfl⟩

/-- Every step answers a next state (60_exceptions R192). -/
theorem step_next (s : State) : ∃ t, step s = .next t := by
  match hh : s.host with
  | [] => exact ⟨_, step_idle hh⟩
  | .reset :: rest => exact ⟨_, step_reset hh⟩
  | .command c :: rest => exact step_command hh ▸ runCommand_next c _

/-! ## Each fault under its condition -/

/-- A handle that fits the `HB` bits of its field is valid when the number of handles is a power of two, 2 or more
(60_exceptions R183). -/
theorem lt_nHandles_of_lt_handleBits {cfg : Config} {k h : Nat} (hk : 1 ≤ k) (hn : cfg.nHandles = 2 ^ k)
    (hh : h < 2 ^ cfg.handleBits) : h < cfg.nHandles := by
  have hbits : cfg.handleBits = k := by rw [Config.handleBits, hn, Nat.clog_pow _ _ (by decide), max_eq_right hk]
  rwa [hbits, ← hn] at hh

/-- Settles O37: the two causes are the reserved case of `runCommand` and the handle check. -/
theorem illegalCommandCauses : Obligations.IllegalCommandCauses := by
  refine ⟨fun s c rest e hhost hd hs => ?reserved, fun s i h hi hn hs => exec_invalidHandle hs hi hn,
    fun cfg k h => lt_nHandles_of_lt_handleBits⟩
  rw [step_command hhost, runCommand_error _ hd]
  exact unlessHalted_running _ hs

/-- Settles O38: the second fault of a store access. -/
theorem reentrantAccessWhileBusy : Obligations.ReentrantAccessWhileBusy := by
  intro s i h base n hi hh hs ha hb
  obtain ⟨-, hreentrant, -⟩ := accessFaults hi ha hs
  exact hreentrant hh hb

/-- SNAPSHOT is the command with `op = 0x8A` (30_encoding R88). -/
theorem op_eq_snapshot_iff (i : Instr) : i.op = 0x8A ↔ i.opcode = .snapshot := by
  refine ⟨fun hop => ?_, fun hsnapshot => by cases i <;> cases hsnapshot; exact op_of_handle rfl⟩
  have hdecode : decodeOp 0x8A = .ok (.snapshot, false) := by decide
  have hboth := hop ▸ decodeOp_op i
  rw [hdecode, Except.ok.injEq, Prod.mk.injEq] at hboth
  exact hboth.1.symm

/-- A command answered BOUNDS_FAULT made an access that is out of range (60_exceptions R186). -/
theorem outOfRange_of_status {i : Instr} {s t : State} {r : Response} (he : exec i s = .next t)
    (hr : t.rsp = some r) (hst : r.status = .boundsFault) :
    ∃ base n, storeAccess s.cfg.cap i = some (base, n) ∧ s.cfg.cap < base + n := by
  rcases exec_cases he with ⟨-, rfl⟩ | ⟨f, info, -, hraise, rfl⟩ | ⟨-, -, rfl⟩
  · cases hr
    cases hst
  · cases hr
    obtain ⟨h, -, ⟨rfl, -, -⟩ | ⟨n, ha, -, ⟨rfl, -⟩ | ⟨-, -, hc⟩⟩⟩ := raises_some hraise
    · cases hst
    · cases hst
    · exact ⟨info, n, ha, hc⟩
  · cases hr
    cases (answer_status i s).symm.trans hst

/-- Settles O39: the third fault of a store access; TRANSLATE makes none, and SNAPSHOT's is in range. -/
theorem boundsFaultOutOfRange : Obligations.BoundsFaultOutOfRange := by
  refine ⟨fun s i h base n hi hh hs hb ha hc => ?raised, fun i s t r he hr hst => ?only⟩
  case raised =>
    obtain ⟨-, -, hbounds⟩ := accessFaults hi ha hs
    exact hbounds hh hb hc
  case only =>
    obtain ⟨base, n, ha, hc⟩ := outOfRange_of_status he hr hst
    obtain ⟨hop, -⟩ := outOfRange_access ha hc
    refine ⟨fun htranslate => ?_, fun hsnapshot => ?_, base, n, ha, hc⟩
    · cases i <;> cases htranslate
      cases ha
    · rw [(op_eq_snapshot_iff i).mpr hsnapshot] at hop
      exact absurd hop (by decide)

/-! ## The halted condition and the order of outcomes -/

/-- Settles O40: a halted CORE refuses the command, and a refusal changes no status output. -/
theorem haltedRefusesEveryCommand : Obligations.HaltedRefusesEveryCommand := by
  intro s c rest hhost hs
  refine ⟨_, ?_, rfl, rfl, rfl⟩
  rw [step_command hhost]
  exact runCommand_halted c (s := { s with host := rest }) hs

/-- A command that accesses the store is an MMU command. -/
theorem handle_of_storeAccess {i : Instr} {cap : Nat} {p : Nat × Nat} (ha : storeAccess cap i = some p) :
    ∃ h, i.handle = some h := by
  cases i with
  | readByte h | readWord h | writeByte h | writeWord h | readBlock h | writeBlock h | snapshot h =>
    exact ⟨h, rfl⟩
  | _ => cases ha

/-- What it takes to raise no fault: no invalid handle, and a store access, if any, in range with `BUSY` free. -/
theorem raises_none {i : Instr} {s : State} (hr : raises i s = none) :
    (∀ h, i.handle = some h → h < s.cfg.nHandles) ∧
    ∀ base n, storeAccess s.cfg.cap i = some (base, n) → s.busy = false ∧ base + n ≤ s.cfg.cap := by
  refine ⟨fun h hi => Nat.not_le.mp fun hn => ?_, fun base n ha => ?_⟩
  · simp [raises, hi, hn] at hr
  · obtain ⟨h, hi⟩ := handle_of_storeAccess ha
    simp only [raises, hi, ha] at hr
    split_ifs at hr with hn hb hc
    exact ⟨by simpa using hb, Nat.not_lt.mp hc⟩

/-- Settles O41: the condition of each fault selects its own place in the order. -/
theorem outcomePriority : Obligations.OutcomePriority := by
  intro s c rest hhost
  obtain ⟨t, hstep⟩ := step_next s
  rcases step_command_cases hhost hstep with ⟨hs, rfl⟩ | ⟨f, info, hs, hr, rfl⟩ | ⟨i, hs, hd, hr, rfl⟩
  · exact ⟨_, _, hstep, rfl, by rw [if_pos hs]⟩
  · refine ⟨_, _, hstep, rfl, ?_⟩
    cases hd : decodeCommand c with
    | error e =>
      cases (commandRaises_error s hd).symm.trans hr
      simp [hs, Fault.status]
    | ok i =>
      rw [commandRaises_ok s hd] at hr
      obtain ⟨h, hi, ⟨rfl, -, hn⟩ | ⟨n, ha, hn, ⟨rfl, hb⟩ | ⟨rfl, hb, hc⟩⟩⟩ := raises_some hr
      · simp [hs, hi, hn, Fault.status]
      · simp [hs, hi, ha, hb, Nat.not_le.mpr hn, Fault.status]
      · simp [hs, hi, ha, hb, hc, Nat.not_le.mpr hn, Fault.status]
  · refine ⟨_, _, hstep, rfl, ?_⟩
    obtain ⟨hvalid, haccess⟩ := raises_none hr
    have hany : i.handle.any (fun h => decide (s.cfg.nHandles ≤ h)) = false := by
      simpa [Option.any_eq_false] using hvalid
    cases ha : storeAccess s.cfg.cap i with
    | none => simp [hs, hd, hany, ha, answer_status]
    | some p =>
      obtain ⟨hb, hc⟩ := haccess p.1 p.2 ha
      simp [hs, hd, hany, ha, hb, Nat.not_lt.mpr hc, answer_status]

/-! ## Fault entry -/

/-- The latch and the response number a fault alike (30_encoding R84, 60_exceptions R181). -/
theorem Fault.setWidth_code (f : Fault) : f.code.setWidth 3 = f.status.code := by cases f <;> rfl

/-- A command's store access begins at its linear address, SNAPSHOT's at 0 (60_exceptions R181). -/
theorem storeAccess_base {c : Command} {i : Instr} {cap base n : Nat} (hd : decodeCommand c = .ok i)
    (ha : storeAccess cap i = some (base, n)) : base = if c.op = 0x8A then 0 else lin c.seg c.off := by
  obtain ⟨o, v, -, rfl⟩ := decodeCommand_ok hd
  simp only [← op_of_decodeCommand hd, op_eq_snapshot_iff, opcode_assemble]
  cases o <;> cases ha <;> rfl

/-- The address each fault of a command records (60_exceptions R181, R189). -/
theorem address_of_commandRaises {c : Command} {s : State} {f : Fault} {info : Nat}
    (hr : commandRaises c s = some (f, info)) :
    f = .illegalCommand ∧ info = 0 ∨
    f = .reentrantAccess ∧ info = (if c.op = 0x8A then 0 else lin c.seg c.off) ∨
    f = .boundsFault ∧ info = lin c.seg c.off := by
  cases hd : decodeCommand c with
  | error e =>
    cases (commandRaises_error s hd).symm.trans hr
    exact .inl ⟨rfl, rfl⟩
  | ok i =>
    rw [commandRaises_ok s hd] at hr
    obtain ⟨h, -, ⟨rfl, rfl, -⟩ | ⟨n, ha, -, ⟨rfl, -⟩ | ⟨rfl, -, hc⟩⟩⟩ := raises_some hr
    · exact .inl ⟨rfl, rfl⟩
    · exact .inr (.inl ⟨rfl, storeAccess_base hd ha⟩)
    · have hop : c.op ∈ boundsFaultOps := op_of_decodeCommand hd ▸ (outOfRange_access ha hc).1
      have hne : c.op ≠ 0x8A := fun heq => absurd (heq ▸ hop) (by decide)
      exact .inr (.inr ⟨rfl, (storeAccess_base hd ha).trans (if_neg hne)⟩)

/-! A completed command leaves the latch. -/

@[simp] theorem completed_faultCode (i : Instr) (s : State) : (completed i s).faultCode = s.faultCode := rfl
@[simp] theorem completed_faultOp (i : Instr) (s : State) : (completed i s).faultOp = s.faultOp := rfl
@[simp] theorem completed_faultAddr (i : Instr) (s : State) : (completed i s).faultAddr = s.faultAddr := rfl

/-- Settles O42: a running CORE raises the command's fault, or completes the command and leaves the latch. -/
theorem faultEntryRecordsTheCommand : Obligations.FaultEntryRecordsTheCommand := by
  intro s t c rest r hhost hs hstep hrsp
  rcases step_command_cases hhost hstep with ⟨hne, -⟩ | ⟨f, info, -, hr, rfl⟩ | ⟨i, -, -, -, rfl⟩
  · exact absurd hs hne
  · cases hrsp
    refine ⟨f.setWidth_code, fun hok => absurd hok f.status_ne.1, fun _ => rfl, ?_⟩
    obtain ⟨rfl, rfl⟩ | ⟨rfl, rfl⟩ | ⟨rfl, rfl⟩ := address_of_commandRaises hr <;> simp [Fault.status]
  · cases hrsp
    simp [answer_status, hs, Status.code]

/-- Settles O43: a command that does not complete is refused or raises its fault, and neither touches FLAGS, the
store or `BUSY`. -/
theorem faultsAreAllOrNothing : Obligations.FaultsAreAllOrNothing := by
  intro s t c rest r hhost hstep hrsp hne
  rcases step_command_cases hhost hstep with ⟨-, rfl⟩ | ⟨f, info, -, -, rfl⟩ | ⟨i, -, -, -, rfl⟩
  · cases hrsp
    exact ⟨rfl, rfl, rfl, rfl, rfl⟩
  · cases hrsp
    exact ⟨rfl, rfl, rfl, rfl, rfl⟩
  · cases hrsp
    exact absurd (answer_status i _) hne

/-! ## Runs from reset -/

/-- Every run from a state of the invariant completes in one. -/
theorem run_keeps_inv (n : Nat) {s : State} (h : s.Inv) : ∃ t, Host.Core.run core n s = .next t ∧ t.Inv := by
  induction n generalizing s with
  | zero => exact ⟨s, rfl, h⟩
  | succ n ih =>
    obtain ⟨u, hu⟩ := step_next s
    rw [run_succ_of_step n hu]
    exact ih (stepKeepsTheInvariant s u h hu)

/-- Without a reentrant access the latch does not hold its code (60_exceptions R185). -/
theorem State.LatchSound.faultCode_ne {s : State} (h : s.LatchSound) : s.faultCode ≠ 3 := by
  rcases h with ⟨hc, -⟩ | ⟨hc, -⟩ | ⟨hc, -⟩ <;> rw [hc] <;> decide

/-- Settles O60: the reset state with any admissible parameters meets the invariant, whatever the host will do. -/
theorem noRunMeetsReentrantAccess : Obligations.NoRunMeetsReentrantAccess := by
  intro n cfg moves hcfg
  have hreset : ({ State.reset with cfg := cfg, host := moves } : State).Inv :=
    applyReset_inv (s := { State.reset with cfg := cfg, host := moves }) hcfg
  obtain ⟨t, hrun, ht⟩ := run_keeps_inv n hreset
  exact ⟨t, hrun, ht, ht.latch.faultCode_ne, ht.notReentrant⟩

end Sys2Proof.Machine

/-!
PROOFS of the family 70_reset_and_hazards: the reset input, the idle step and the outcome every step has, the recipes
that force a flag, and the flags word saved to the store. The saved word turns on two facts: a stored word is read
back as the low half of the value written (`readHalf_after_writeWord`), and Unpack undoes Pack over any register.
-/

namespace Sys2Proof.Machine

/-! ## What a step does with the host's next move -/

/-- Settles O10: the step is `applyReset`, which takes every field but two from the reset state. -/
theorem resetInputZeroesEverything : Obligations.ResetInputZeroesEverything := fun _ _ hhost =>
  ⟨_, step_reset hhost, rfl, Memory.read_nil, rfl, rfl, rfl, rfl, rfl, rfl, rfl, rfl⟩

/-- Settles O12: the case of `step` for an empty host list. -/
theorem idleStepChangesNothing : Obligations.IdleStepChangesNothing := fun _ => step_idle

/-- A step on a command takes that one move, keeps the build parameters and delivers a response, whether the command
is refused, faults or completes (30_encoding R80, 70_reset_and_hazards R213). -/
theorem step_command_responds {s : State} {c : Command} {rest : List HostMove} (hhost : s.host = .command c :: rest) :
    ∃ t, step s = .next t ∧ t.host = rest ∧ t.cfg = s.cfg ∧ t.rsp.isSome = true := by
  obtain ⟨t, hstep⟩ := step_next s
  refine ⟨t, hstep, ?_⟩
  rcases step_command_cases hhost hstep with ⟨-, rfl⟩ | ⟨f, info, -, -, rfl⟩ | ⟨i, -, -, -, rfl⟩
  · exact ⟨rfl, rfl, rfl⟩
  · exact ⟨rfl, rfl, rfl⟩
  · exact ⟨rfl, rfl, rfl⟩

/-- Settles O13, by the host's next move: none, the reset input or a command. -/
theorem everyStepCompletes : Obligations.EveryStepCompletes := by
  intro s
  match hhost : s.host with
  | [] => exact ⟨s, step_idle hhost, hhost, rfl, by simp⟩
  | .reset :: rest => exact ⟨_, step_reset hhost, rfl, rfl, by simp⟩
  | .command c :: rest =>
    obtain ⟨t, hstep, hrest, hcfg, hrsp⟩ := step_command_responds hhost
    exact ⟨t, hstep, hrest, hcfg, fun _ _ _ => hrsp⟩

/-! ## Forcing a flag -/

/-- Settles O56: each recipe sets or clears the one bit its evaluator reads, and the low byte SET_ZERO compares
with 0. -/
theorem forcingRecipes : Obligations.ForcingRecipes := by
  intro s hs v
  refine ⟨⟨_, exec_setCarry hs .w8 _, ?_⟩, ⟨_, exec_setParity hs _, ?_⟩, ⟨_, exec_setAux hs _ 0 0, ?_⟩,
    ⟨_, exec_setZero hs .w8 _, ?_⟩, ⟨_, exec_setSign hs .w8 _, ?_⟩, ⟨_, exec_setOvfAdd hs .w8 _ 0 0, ?_⟩⟩
  all_goals cases v <;> rfl

/-! ## The flags word through the store -/

/-- The low half of a 16-bit result is the value itself (30_encoding R89). -/
theorem extractLsb'_halfResult (v : Half) : (halfResult v).extractLsb' 0 16 = v := by
  refine BitVec.eq_of_getLsbD_eq fun k hk => ?_
  simp [getLsbD_halfResult, hk]

/-- A stored word is read back as the low half of the value written (20_memory R56, R57). -/
theorem readHalf_after_writeWord {m : Memory} (hm : m.wf) (h : Nat) (seg off : Half) (a : Word) :
    (memAfter (.writeWord h seg off a) m).readHalf (lin seg off) = a.extractLsb' 0 16 := by
  rw [Memory.readHalf, read_memAfter_of_stored hm (storedByte_writeWord_high h seg off a),
    read_memAfter_of_stored hm (storedByte_writeWord_low h seg off a)]
  exact BitVec.extractLsb'_append_extractLsb'_eq_extractLsb' rfl

/-- DESERIALIZE of a SERIALIZE answer installs the serialized register over any other (40_flags_ops R127, R128). -/
theorem flagsAfter_deserialize_serialized {f g : Flags} (hf : f.ReservedClear) (hg : g.ReservedClear) :
    flagsAfter (.deserialize (halfResult (pack f))) g = f := by
  obtain ⟨hinverse, -⟩ := packAndUnpackInvert
  rw [flagsAfter, extractLsb'_halfResult, hinverse f g hf hg]

/-- Settles O57: the word read is the packed word, and DESERIALIZE takes it apart. -/
theorem flagsWordThroughTheStoreRestores : Obligations.FlagsWordThroughTheStoreRestores := by
  intro s g h h' seg off seg' off' hs hb hflags hg hm hh hh' hr heq
  refine ⟨_, halfResult (pack s.flags), _, _, halfResult (pack s.flags), _, exec_serialize hs, rfl,
    exec_inRange hs rfl hh hb rfl hr, exec_inRange hs rfl hh' hb rfl (heq ▸ hr), ?read, exec_flags hs rfl,
    flagsAfter_deserialize_serialized hflags hg⟩
  case read =>
    rw [completed_rsp, answer, ← heq, completed_mem, readHalf_after_writeWord hm, extractLsb'_halfResult]

end Sys2Proof.Machine
